-- ==== Sys2Proof/Word.lean ====
section
/-! DEFINITION. The word types of the block (00_scope.md R5, R7): bytes, the 64-bit patterns of every register and mask,
and the field widths of a packet. -/

namespace Sys2Proof

/-- A byte: the unit of needle and stream (R5). Bit 0 is the least significant (R7). -/
abbrev Byte := BitVec 8

/-- A 64-bit pattern: `progress`, `pendingCompletions`, every mask, both success masks (R5, `XLEN = 64`). -/
abbrev Word := BitVec 64

/-- A session id as a packet carries it (R6, `SID_W = 4`). -/
abbrev SessionId := BitVec 4

/-- `ONES`, "-1 as a 64-bit pattern" (R8). -/
abbrev ones : Word := BitVec.allOnes 64

end Sys2Proof
end

