-- ==== Sys2Proof/Syntax.lean ====
section
/-! DEFINITION. The seven commands (30_encoding.md R48), one constructor per row of the opcode table, and the packet
record they travel in (R45). -/

namespace Sys2Proof

/-- A command of R48 with the operands of R50. The needle of `COMPILE` carries its own length, so `LEN` is no second
operand. An operand `w` is the 64-bit word whose byte `i` is `w[8i+7:8i]` (R33). -/
inductive Instr where
  /-- `COMPILE`: R64. -/
  | compile (needle : List Byte)
  /-- `RESET s`, and the pseudo-command `NEWSESSION s`: R71, R72. -/
  | reset (sid : SessionId)
  /-- `STEPB s, b`: R76. -/
  | stepb (sid : SessionId) (b : Byte)
  /-- `STEPW s, w`: R79. -/
  | stepw (sid : SessionId) (w : Word)
  /-- `HASPEND s`: R89. -/
  | haspend (sid : SessionId)
  /-- `NEXTOFF s`: R92. -/
  | nextoff (sid : SessionId)
  /-- `GETLEN s`: R73. -/
  | getlen (sid : SessionId)
deriving DecidableEq, Repr

/-- The pseudo-command `NEWSESSION s`: the same packet as `RESET s` (R61, R72). -/
abbrev Instr.newsession (sid : SessionId) : Instr := .reset sid

/-- The session a command names; `COMPILE` names none (R51). -/
def Instr.session? : Instr → Option SessionId
  | .compile _ => none
  | .reset sid => some sid
  | .stepb sid _ => some sid
  | .stepw sid _ => some sid
  | .haspend sid => some sid
  | .nextoff sid => some sid
  | .getlen sid => some sid

/-- One command packet as the record of four fields of R45. -/
structure Packet where
  op : BitVec 4
  sid : SessionId
  len : BitVec 8
  payload : List Byte
deriving DecidableEq, Repr

end Sys2Proof
end

