-- ==== Sys2Proof/WellFormed.lean ====
section
/-! DEFINITION. Which terms of `Instr` a packet can present (30_encoding.md R50, R52). -/

namespace Sys2Proof

/-- A needle has a length a packet's 8-bit `LEN` can carry, 0..255: "Lengths above 255 cannot be presented" (R52).
Every other operand is a field of its own width and is always presentable; a session id of `N_SESS` or more, or a needle
the block refuses, is a well-formed command that is answered with an error. -/
def Instr.wellFormed : Instr → Bool
  | .compile needle => decide (needle.length ≤ 255)
  | .reset _ => true
  | .stepb _ _ => true
  | .stepw _ _ => true
  | .haspend _ => true
  | .nextoff _ => true
  | .getlen _ => true

end Sys2Proof
end

