-- ==== Sys2Proof/Decode.lean ====
section
/-! DEFINITION. Command packets: decoding, total on any bytes (30_encoding.md R59), and the encoder written from the
same tables (R46 to R50). -/

namespace Sys2Proof

/-! ### Bytes and words (20_memory.md R33, 30_encoding.md R50) -/

/-- Byte `b_i = w[8i+7 : 8i]` of a word; `b_0` is first in the stream (R33; log entry 12). -/
def wordByte (w : Word) (i : Nat) : Byte := (w >>> (8 * i)).setWidth 8

/-- The eight bytes of a word in stream order: the little-endian image a packet carries (R50). -/
def wordBytes (w : Word) : List Byte := (List.range 8).map (wordByte w)

/-- `PAYLOAD[0] | PAYLOAD[1] << 8 | …`: the word whose little-endian image the bytes are (R50). -/
def wordOfBytes (bs : List Byte) : Word := bs.foldr (fun b acc => (acc <<< 8) ||| b.setWidth 64) 0

/-! ### The header (R46) and the packet's length (R47) -/

/-- The header as a 16-bit number with packet byte 0 as its low byte (R46). -/
def header (b0 b1 : Byte) : BitVec 16 := b1 ++ b0

/-- `OP = H[3:0]` (R46). -/
def headerOp (h : BitVec 16) : BitVec 4 := h.extractLsb' 0 4

/-- `SID = H[7:4]` (R46). -/
def headerSid (h : BitVec 16) : SessionId := h.extractLsb' 4 4

/-- `LEN = H[15:8]` (R46). -/
def headerLen (h : BitVec 16) : BitVec 8 := h.extractLsb' 8 8

/-- The payload length the header alone tells (R47), also for a packet that will be refused. -/
def payloadLength (h : BitVec 16) : Nat :=
  if headerOp h = 0x1 then (headerLen h).toNat
  else if headerOp h = 0x3 then 1
  else if headerOp h = 0x4 then 8
  else 0

/-! ### The opcode map (R48) -/

/-- One row of R48: a header `H` selects it when `H & mask == pattern`. -/
structure OpcodeRow where
  mnemonic : String
  pattern : BitVec 16
  mask : BitVec 16
  /-- The command with the operands of R50. -/
  operands : Packet → Instr

/-- The rows of R48. -/
def opcodeTable : List OpcodeRow := [
  ⟨"COMPILE", 0x0001, 0x00FF, fun p => .compile p.payload⟩,
  ⟨"RESET",   0x0002, 0xFF0F, fun p => .reset p.sid⟩,
  ⟨"STEPB",   0x0003, 0xFF0F, fun p => .stepb p.sid (p.payload.headD 0)⟩,
  ⟨"STEPW",   0x0004, 0xFF0F, fun p => .stepw p.sid (wordOfBytes p.payload)⟩,
  ⟨"HASPEND", 0x0005, 0xFF0F, fun p => .haspend p.sid⟩,
  ⟨"NEXTOFF", 0x0006, 0xFF0F, fun p => .nextoff p.sid⟩,
  ⟨"GETLEN",  0x0007, 0xFF0F, fun p => .getlen p.sid⟩]

/-- Whether a header selects a row (R48). -/
def OpcodeRow.selects (r : OpcodeRow) (h : BitVec 16) : Bool := decide (h &&& r.mask = r.pattern)

/-! ### Decoding (R59) -/

/-- Why a whole packet is no command (R53, R54). -/
inductive Reject where
  /-- `OP` is 0x0 or 0x8..0xF (R53). -/
  | reservedOp
  /-- A legal `OP` whose reserved field is not zero: `SID` of `COMPILE`, `LEN` of the others (R54). -/
  | reservedField
deriving DecidableEq, Repr

/-- What the bytes not yet consumed begin with (R59). -/
inductive Decoded where
  /-- A command, and the bytes after its packet. -/
  | command (i : Instr) (rest : List Byte)
  /-- The illegal command, and the bytes after its packet. -/
  | illegal (why : Reject) (rest : List Byte)
  /-- No command is present yet: the packet is not whole. -/
  | incomplete
deriving DecidableEq, Repr

/-- Why a header that selects no row is refused (R53, R54). -/
def rejectReason (h : BitVec 16) : Reject :=
  if headerOp h = 0x0 ∨ 0x8 ≤ headerOp h then .reservedOp else .reservedField

/-- Step (5) of R59: the row's command, or the illegal command. -/
def classify (h : BitVec 16) (payload rest : List Byte) : Decoded :=
  match opcodeTable.find? (fun r => r.selects h) with
  | some row => .command (row.operands ⟨headerOp h, headerSid h, headerLen h, payload⟩) rest
  | none => .illegal (rejectReason h) rest

/-- The decode procedure, total on any byte string (R59). -/
def decode : List Byte → Decoded
  | b0 :: b1 :: rest =>
    let h := header b0 b1
    let n := payloadLength h
    if rest.length < n then .incomplete
    else classify h (rest.take n) (rest.drop n)
  | _ => .incomplete

/-! ### Encoding (R46 to R50) -/

/-- The two header bytes of R46. -/
def headerBytes (op : BitVec 4) (sid : SessionId) (len : BitVec 8) : List Byte := [sid ++ op, len]

/-- The packet of a well-formed command, by the formats of R49. -/
def encode : Instr → List Byte
  | .compile needle => headerBytes 0x1 0 (BitVec.ofNat 8 needle.length) ++ needle
  | .reset sid => headerBytes 0x2 sid 0
  | .stepb sid b => headerBytes 0x3 sid 0 ++ [b]
  | .stepw sid w => headerBytes 0x4 sid 0 ++ wordBytes w
  | .haspend sid => headerBytes 0x5 sid 0
  | .nextoff sid => headerBytes 0x6 sid 0
  | .getlen sid => headerBytes 0x7 sid 0

/-! ### One number as a packet (the host's numbering of an opcode-table word) -/

/-- The longest packet: a header and 255 needle bytes (R47). -/
def longestPacket : Nat := 257

/-- The bytes of the number `w`, bit 0 the least significant bit of the first byte; every bit from `nbits` on is 0. -/
def tableBytes (nbits w : Nat) : List Byte :=
  (List.range longestPacket).map fun k => BitVec.ofNat 8 ((w % 2 ^ nbits) >>> (8 * k))

/-- The bytes of `tableBytes` that make one whole packet (R47). -/
def tablePacket (nbits w : Nat) : List Byte :=
  let bs := tableBytes nbits w
  bs.take (2 + payloadLength (header (bs.getD 0 0) (bs.getD 1 0)))

/-- The instruction the decoder reads from an opcode-table word. -/
def decodeTableWord (nbits w : Nat) : Option Instr :=
  match decode (tableBytes nbits w) with
  | .command i _ => some i
  | .illegal _ _ => none
  | .incomplete => none

end Sys2Proof
end

