-- ==== Sys2Proof/Config.lean ====
section
/-! DEFINITION. The constants of the block (00_scope.md R5, R6) and the one parameter the spec leaves open, `N_SESS`. -/

namespace Sys2Proof.Config

/-- `N_MASK`, the entries of the mask table: 256 per-byte-value entries and one sentinel (R5). -/
def nMask : Nat := 257

/-- `SENT`, the index of the sentinel entry (R5). -/
def sentinelIndex : Nat := 256

/-- `M_MIN`, the least needle length (R5). -/
def minNeedle : Nat := 1

/-- `M_MAX`, the greatest needle length, `XLEN - 7` (R5). -/
def maxNeedle : Nat := 57

/-- `BATCH`, the bytes one batch step consumes (R5). -/
def batchBytes : Nat := 8

/-- The session ids a packet can carry, `2 ^ SID_W` (R6). -/
def sessionSlots : Nat := 16

/-- How many of the 16 addressable session contexts this instance does NOT have, `16 - N_SESS`.
OPEN in the spec (R6, D7; 93 U8), so it has no body: no proof can see its value (log entry 3). -/
opaque absentSessions : Fin 16

/-- `N_SESS`, "OPEN, an integer 1..16" (R6): the session contexts of this instance. -/
def nSess : Nat := (15 - absentSessions.val) + 1

end Sys2Proof.Config
end

