-- ==== Sys2Proof/Machine/State.lean ====
section
/-! DEFINITION. The state of the block as plain data (10_state.md R13 to R26), the two ports the model holds beside it,
and the state after power-on reset. -/

namespace Sys2Proof.Machine

/-- The six statuses a response can carry (60_exceptions.md R97). -/
inductive Status where
  /-- The command did what its rule says. -/
  | ok
  /-- `COMPILE` with a length of 0 or above 57 (R98). -/
  | invalidPattern
  /-- `NEXTOFF` with nothing pending (R99). -/
  | precondition
  /-- A session command before any successful `COMPILE` (R101). -/
  | noTable
  /-- A session id of `N_SESS` or more (R102). -/
  | badSession
  /-- A reserved opcode or a non-zero reserved field (R103). -/
  | illegalCommand
deriving DecidableEq, Repr

/-- A response: "a record of two fields `(ST, VAL)`" (30_encoding.md R45). -/
structure Response where
  st : Status
  val : BitVec 16
deriving DecidableEq, Repr

/-- One session context (R13): `PROG[s]` (R14) and `PEND[s]` (R15). -/
structure Session where
  prog : Word
  pend : Word
deriving DecidableEq, Repr

/-- The mask table `MT` as pairs (index, entry): indexes strictly rising, no entry equal to what an unlisted index reads
as (`Memory.wf` in Machine/Ops.lean). The unit is the whole 64-bit entry (20_memory.md R29; log entry 7). -/
abbrev Memory := List (Nat × Word)

/-- "The whole state of the block" (10_state.md): one table with its three constants and its valid flag, and the session
contexts. -/
structure Block where
  /-- `MT[0..256]` (R17). -/
  mt : Memory
  /-- `NLEN`, the needle length, in the 6 bits R18 gives it. -/
  nlen : BitVec 6
  /-- `SSM`, the single-step success mask (R18). -/
  ssm : Word
  /-- `BSM`, the batch success mask (R18). -/
  bsm : Word
  /-- `TV`, the table-valid flag (R20). -/
  tv : Bool
  /-- `PROG[s]`, `PEND[s]` by session id; the ids from `N_SESS` on name no context and stay zero (R13; log entry 4). -/
  sessions : Vector Session 16
deriving DecidableEq, Repr

/-- The block and its two ports. The ports are the MODEL's own fields (log entry 1): R24 keeps them out of the block's
state, so they stand beside `block`. -/
structure State where
  block : Block
  /-- The bytes the host has presented and the block has not yet consumed (30_encoding.md R59). -/
  cmdPort : List Byte
  /-- The responses given so far, oldest first (R45, R126). -/
  responses : List Response
deriving DecidableEq, Repr

/-- The faults of the machine: none. No rule stops the block: "no table access can fault" (20_memory.md R31), and every
error is a response after which "the block accepts the next command" (60_exceptions.md R106). Safe: nothing is cut off
(log entry 14). -/
inductive Fault where
deriving DecidableEq, Repr

/-- The refusals of the machine. -/
inductive Refusal where
  /-- Raised only by an arm of `exec` whose instruction has no meaning yet; no arm raises it. Safe: the machine stops. -/
  | notModelled (mnemonic : String)
deriving DecidableEq, Repr

/-- A session's "initial (all-zero) state" (10_state.md R26). -/
def Session.zero : Session := ⟨0, 0⟩

/-- The block after power-on reset (10_state.md R25): `TV = 0` and every session zero, as the rule says; `NLEN`, `SSM`
and `BSM`, which the rule leaves unspecified, are 0 (DESIGN CHOICE, unsafe: log entry 5), and no entry of `MT` is listed
(log entry 6). -/
def Block.powerOn : Block where
  mt := []
  nlen := 0
  ssm := 0
  bsm := 0
  tv := false
  sessions := Vector.replicate 16 Session.zero

/-- The machine right after power-on reset: the block of R25, nothing presented, nothing answered. -/
def State.reset : State where
  block := Block.powerOn
  cmdPort := []
  responses := []

end Sys2Proof.Machine
end

