-- ==== Sys2Proof/Machine/Ops.lean ====
section
/-! DEFINITION. The named operations over the table, the session contexts and the ports, and the two ways a command
ends: `ret` (R10 `return v`) and `raise` (R10 `raise <Status>(info)`). -/

namespace Sys2Proof.Machine

/-! ### The mask table as memory (20_memory.md R29 to R32) -/

/-- What an entry nothing has written reads as: the ONE definition of it. The spec leaves it unspecified (R25); 0 is the
model's (DESIGN CHOICE, unsafe: log entry 6). -/
def unlistedMask : Word := 0

/-- The one canonical form: indexes strictly rising and inside the address map of R30, no entry equal to
`unlistedMask`. -/
abbrev Memory.wf (m : Memory) : Prop :=
  m.Pairwise (fun a b => a.1 < b.1) ∧ ∀ c ∈ m, c.1 < Config.nMask ∧ c.2 ≠ unlistedMask

/-- `TblRead(i)` (R10): read of a whole entry (R32), without side effect (R37). -/
def Memory.read : Memory → Nat → Word
  | [], _ => unlistedMask
  | (j, v) :: m, i => if i = j then v else Memory.read m i

/-- An entry put before a list of higher ones, left out where it is what an unlisted index reads as. -/
def Memory.cons (i : Nat) (v : Word) (m : Memory) : Memory :=
  if v = unlistedMask then m else (i, v) :: m

/-- `TblWrite(i, v)` (R10): write of a whole entry, keeping the canonical form. -/
def Memory.write : Memory → Nat → Word → Memory
  | [], i, v => Memory.cons i v []
  | (j, u) :: m, i, v =>
    if i < j then Memory.cons i v ((j, u) :: m)
    else if i = j then Memory.cons i v m
    else (j, u) :: Memory.write m i v

/-- An index of the address map of R30. No command can form another (R31). -/
abbrev Index := Fin 257

/-- `MT[i]` (R10). -/
def Block.mask (b : Block) (i : Index) : Word := b.mt.read i.val

/-! ### Session contexts (10_state.md R13) -/

/-- The registers of session `s`. -/
def Block.session (b : Block) (sid : SessionId) : Session := b.sessions[sid.toNat]'(by have := sid.isLt; omega)

/-- Write of the registers of session `s`; no other session's (R16). -/
def Block.setSession (b : Block) (sid : SessionId) (x : Session) : Block :=
  { b with sessions := b.sessions.set sid.toNat x (by have := sid.isLt; omega) }

/-- Every session in its initial state (R26, R68). -/
def Block.zeroSessions (b : Block) : Block := { b with sessions := Vector.replicate 16 Session.zero }

/-- `SID < N_SESS` (R51). -/
def sessionPresent (sid : SessionId) : Bool := decide (sid.toNat < Config.nSess)

/-- `PROG[s]` (R10). -/
def State.prog (s : State) (sid : SessionId) : Word := (s.block.session sid).prog

/-- `PEND[s]` (R10). -/
def State.pend (s : State) (sid : SessionId) : Word := (s.block.session sid).pend

/-- `MT[i]` (R10). -/
def State.mask (s : State) (i : Index) : Word := s.block.mask i

/-- Write of both registers of session `s`. -/
def State.setSession (s : State) (sid : SessionId) (x : Session) : State :=
  { s with block := s.block.setSession sid x }

/-- `PROG[s] <- v`. -/
def State.setProg (s : State) (sid : SessionId) (v : Word) : State := s.setSession sid ⟨v, s.pend sid⟩

/-- `PEND[s] <- v`. -/
def State.setPend (s : State) (sid : SessionId) (v : Word) : State := s.setSession sid ⟨s.prog sid, v⟩

/-! ### Ending a command (00_scope.md R10, 60_exceptions.md R97 to R106) -/

/-- The one response of a command, on the response port (30_encoding.md R45). -/
def respond (st : Status) (val : BitVec 16) (s : State) : State :=
  { s with responses := s.responses ++ [⟨st, val⟩] }

/-- `return v`: end the command with status `OK` and `VAL = v` (R10). -/
def ret (val : BitVec 16) (s : State) : State := respond .ok val s

/-- `raise <Status>(info)`: end the command with that status and that value, with no state written (R10, R100). This is
all that taking an error does: "Nothing is saved anywhere, no mode or mask changes, control goes nowhere". There is no
return from it: the block accepts the next command (R106). -/
def raise (st : Status) (val : BitVec 16) (s : State) : State := respond st val s

/-- The checks common to the session commands, in the order of R104: `BAD_SESSION` (R102), then `NO_TABLE` (R101), then
the command's own rule. `ILLEGAL_COMMAND` has been checked before, at decoding. -/
def sessionCommand (sid : SessionId) (s : State) (own : State → State) : Host.Outcome State Fault Refusal :=
  .next (if sessionPresent sid = false then raise .badSession 0 s
    else if s.block.tv = false then raise .noTable 0 s
    else own s)

/-! ### Response packets (30_encoding.md R56) -/

/-- The number of a status (R97). -/
def Status.code : Status → BitVec 4
  | .ok => 0x0
  | .invalidPattern => 0x1
  | .precondition => 0x2
  | .noTable => 0x3
  | .badSession => 0x4
  | .illegalCommand => 0x5

/-- The 3-byte response packet: `ST` in bits 3:0 of byte 0, then `VAL` low byte first (R35, R56). -/
def Response.packet (r : Response) : List Byte :=
  [r.st.code.setWidth 8, r.val.extractLsb' 0 8, r.val.extractLsb' 8 8]

/-- The bytes the response port has carried so far, in order. -/
def State.responseBytes (s : State) : List Byte := s.responses.flatMap Response.packet

end Sys2Proof.Machine
end

