-- ==== Sys2Proof/Machine/Operands.lean ====
section
/-! DEFINITION. How operands reach the datapath: table indexes formed from stream bytes (20_memory.md R31) and the value
fields of responses (30_encoding.md R57). -/

namespace Sys2Proof.Machine

/-- `zext_9(b)`: the index of a byte value, unsigned, `0..255` (R31). -/
def byteIndex (b : Byte) : Index := ⟨b.toNat, by have := b.isLt; omega⟩

/-- The constant index of the sentinel entry, `SENT = 256` (R31). -/
def sentIndex : Index := ⟨256, by decide⟩

/-- `MT[b]` for a stream byte. -/
def State.byteMask (s : State) (b : Byte) : Word := s.mask (byteIndex b)

/-- The `VAL` of `INVALID_PATTERN`: the maximum in the high byte, the length received in the low byte (R57, R97). -/
def invalidPatternVal (len : Nat) : BitVec 16 := BitVec.ofNat 8 Config.maxNeedle ++ BitVec.ofNat 8 len

end Sys2Proof.Machine
end

