-- ==== Sys2Proof/Machine/Compile.lean ====
section
/-! DEFINITION. The pattern compiler: `COMPILE` (40_compile.md R63 to R70). -/

namespace Sys2Proof.Machine

/-- `ONES << m`: the low `m` bits 0, bits `m..63` all 1 (R64). -/
def permissive (m : Nat) : Word := ones <<< m

/-- `for v in 0 .. 255: MT[v] <- ONES << m` (R64). The 256 writes are of different entries and part of one atomic step,
so their order shows nowhere (log entry 18). -/
def initMasks (m : Nat) (mt : Memory) : Memory :=
  (List.range 256).foldr (fun v t => Memory.write t v (permissive m)) mt

/-- `for p in 0 .. m-1, in this order: MT[N[p]] <- MT[N[p]] | (1 << p)` (R64), for the needle bytes from position `p`
on. -/
def orNeedle : Nat → List Byte → Memory → Memory
  | _, [], t => t
  | p, b :: bs, t => orNeedle (p + 1) bs (Memory.write t b.toNat (Memory.read t b.toNat ||| ((1 : Word) <<< p)))

/-- The mask table of a needle, written over the old one (R64). -/
def compiledMasks (needle : List Byte) (mt : Memory) : Memory :=
  Memory.write (orNeedle 0 needle (initMasks needle.length mt)) sentIndex.val ones

/-- Everything a successful `COMPILE` writes (R64): the table, its constants, `TV`, and every session to zero (R68). -/
def Block.install (needle : List Byte) (b : Block) : Block :=
  Block.zeroSessions
    { b with
      mt := compiledMasks needle b.mt
      nlen := BitVec.ofNat 6 needle.length
      ssm := (1 : Word) <<< (needle.length - 1)
      bsm := (0xFF : Word) <<< (needle.length - 1)
      tv := true }

/-- `1 ≤ m ≤ 57` (R65). -/
def legalLength (m : Nat) : Bool := decide (Config.minNeedle ≤ m ∧ m ≤ Config.maxNeedle)

/-- `COMPILE` (R64, R65). It needs no table and names no session. A needle that no packet can carry (longer than 255)
would answer with the low byte of its length (log entry 16). -/
def execCompile (needle : List Byte) (s : State) : Host.Outcome State Fault Refusal :=
  .next (if legalLength needle.length then ret 0 { s with block := s.block.install needle }
    else raise .invalidPattern (invalidPatternVal needle.length) s)

end Sys2Proof.Machine
end

