-- ==== Sys2Proof/Machine/Flags.lean ====
section
/-! DEFINITION. The block has no condition codes (10_state.md R21); these are its derived predicates, the booleans of
its results (30_encoding.md R58) and the leading-zero count (00_scope.md R9). -/

namespace Sys2Proof.Machine

/-- `draining(s) := PEND[s] != 0` (R21). -/
def State.draining (s : State) (sid : SessionId) : Bool := s.pend sid != 0

/-- `idle(s) := PEND[s] == 0` (R21). -/
def State.idle (s : State) (sid : SessionId) : Bool := s.pend sid == 0

/-- SSA's booleans in `VAL`: `true` is 1, `false` is 0 (R58). -/
def boolVal (b : Bool) : BitVec 16 := if b then 1 else 0

/-- The test of R77 and R84: no bit of the success mask is set in the new progress value. -/
def noCompletion (t successMask : Word) : Bool := t &&& successMask == 0

/-- Zero bits of `a` counted down from bit `n - 1` to the first one bit. -/
def leadingZeros (a : Word) : Nat → Nat
  | 0 => 0
  | n + 1 => if a.getLsbD n then 0 else leadingZeros a n + 1

/-- `clz64(a)` (R9); `clz64(0) = 64` is supplied from general knowledge and never evaluated (log entry 11). -/
def clz64 (a : Word) : Nat := leadingZeros a 64

end Sys2Proof.Machine
end

