-- ==== Sys2Proof/Machine/Drain.lean ====
section
/-! DEFINITION. The stride enumerator: `HASPEND` and `NEXTOFF` (43_drain.md R89 to R92). -/

namespace Sys2Proof.Machine

/-- `HASPEND s` (R89). -/
def execHaspend (sid : SessionId) (s : State) : Host.Outcome State Fault Refusal :=
  sessionCommand sid s fun s => ret (boolVal (s.draining sid)) s

/-- `offset = 64 - clz64(PEND[s])` (R92). -/
def nextOffset (pend : Word) : Nat := 64 - clz64 pend

/-- `PEND[s] & ~(1 << (offset - 1))` (R92). -/
def clearOffset (pend : Word) (offset : Nat) : Word := pend &&& ~~~((1 : Word) <<< (offset - 1))

/-- `NEXTOFF s` (R91, R92). -/
def execNextoff (sid : SessionId) (s : State) : Host.Outcome State Fault Refusal :=
  sessionCommand sid s fun s =>
    if s.pend sid = 0 then raise .precondition 0 s
    else
      let offset := nextOffset (s.pend sid)
      ret (BitVec.ofNat 16 offset) (s.setPend sid (clearOffset (s.pend sid) offset))

end Sys2Proof.Machine
end

