-- ==== Sys2Proof/Machine/SessionControl.lean ====
section
/-! DEFINITION. Session control: `RESET` (and `NEWSESSION`) and `GETLEN` (41_session.md R71 to R73). -/

namespace Sys2Proof.Machine

/-- `RESET s` (R71): `PROG[s] <- 0`, `PEND[s] <- 0`. -/
def execReset (sid : SessionId) (s : State) : Host.Outcome State Fault Refusal :=
  sessionCommand sid s fun s => ret 0 (s.setSession sid Session.zero)

/-- `GETLEN s` (R73): `return zext_16(NLEN)`; the session id is checked and not otherwise used (R51). -/
def execGetlen (sid : SessionId) (s : State) : Host.Outcome State Fault Refusal :=
  sessionCommand sid s fun s => ret (s.block.nlen.setWidth 16) s

end Sys2Proof.Machine
end

