-- ==== Sys2Proof/Machine/Steps.lean ====
section
/-! DEFINITION. The step commands `STEPB` and `STEPW` (42_step.md R76 to R88). -/

namespace Sys2Proof.Machine

/-- The update rule: `((progress << 1) | 1) & masks[b]`, on 64 bits (R76). -/
def advance (p mask : Word) : Word := ((p <<< 1) ||| (1 : Word)) &&& mask

/-- The update of R76 for each byte in turn. -/
def State.advanceBytes (s : State) (p : Word) (bs : List Byte) : Word :=
  bs.foldl (fun p b => advance p (s.byteMask b)) p

/-- `rev8(W)[i] = W[7-i]` (R82). -/
def rev8 (w : BitVec 8) : BitVec 8 := w.reverse

/-- `unpack(c)` (R82): the window `(c >> (NLEN-1))[7:0]`, its bits reversed, zero-extended. Sub-offset `j` comes to stand
at bit `j-1` (log entry 13). `NLEN` is at least 1 whenever a table is valid (log entry 10). -/
def unpack (nlen : BitVec 6) (c : Word) : Word :=
  (rev8 ((c >>> (nlen.toNat - 1)).setWidth 8)).setWidth 64

/-- `STEPB s, b` (R76, R77). It neither reads nor writes `PEND[s]` (R78). -/
def execStepb (sid : SessionId) (b : Byte) (s : State) : Host.Outcome State Fault Refusal :=
  sessionCommand sid s fun s =>
    let t := advance (s.prog sid) (s.byteMask b)
    ret (boolVal (noCompletion t s.block.ssm)) (s.setProg sid t)

/-- `STEPW s, w` (R79): eight updates, the sentinel, the window into `PEND[s]`, always written (R85), also on a draining
session (R88; log entry 8). -/
def execStepw (sid : SessionId) (w : Word) (s : State) : Host.Outcome State Fault Refusal :=
  sessionCommand sid s fun s =>
    let t := s.advanceBytes (s.prog sid) (wordBytes w) &&& s.mask sentIndex
    let c := t &&& s.block.bsm
    ret (boolVal (noCompletion t s.block.bsm)) (s.setSession sid ⟨t, unpack s.block.nlen c⟩)

end Sys2Proof.Machine
end

