-- ==== Sys2Proof/Machine/Dispatch.lean ====
section
/-! DEFINITION. One arm per command of the opcode table (30_encoding.md R48). -/

namespace Sys2Proof.Machine

def exec (i : Instr) (s : State) : Host.Outcome State Fault Refusal :=
  match i with
  | .compile needle => Sys2Proof.Machine.execCompile needle s
  | .reset sid => Sys2Proof.Machine.execReset sid s
  | .stepb sid b => Sys2Proof.Machine.execStepb sid b s
  | .stepw sid w => Sys2Proof.Machine.execStepw sid w s
  | .haspend sid => Sys2Proof.Machine.execHaspend sid s
  | .nextoff sid => Sys2Proof.Machine.execNextoff sid s
  | .getlen sid => Sys2Proof.Machine.execGetlen sid s

end Sys2Proof.Machine
end

