-- ==== Sys2Proof/Machine/Port.lean ====
section
/-! DEFINITION. The command port (30_encoding.md R45, R59): how packet bytes are presented and consumed, and the answer
to an illegal command (60_exceptions.md R103). -/

namespace Sys2Proof.Machine

/-- The host presents bytes after those not yet consumed (R38: "in the order the host presented them"). An act of the
host, between steps; no step does it. -/
def present (bytes : List Byte) (s : State) : State := { s with cmdPort := s.cmdPort ++ bytes }

/-- The port after a packet has been consumed whole (R59 (4)). -/
def consumeTo (rest : List Byte) (s : State) : State := { s with cmdPort := rest }

/-- The answer to a reserved opcode or a non-zero reserved field: `ILLEGAL_COMMAND`, `VAL = 0`, nothing written (R53,
R54, R103). -/
def illegalCommand (s : State) : State := raise .illegalCommand 0 s

/-- The bytes of an opcode-table word put where the next packet is taken from, ahead of all others. -/
def placePacket (nbits w : Nat) (s : State) : State := { s with cmdPort := tablePacket nbits w ++ s.cmdPort }

end Sys2Proof.Machine
end

