-- ==== Sys2Proof/Machine/Step.lean ====
section
/-! DEFINITION. "Execute the next command" (00_scope.md R11): the one step relation. -/

namespace Sys2Proof.Machine

/-- One step: decode the bytes not yet consumed (30_encoding.md R59), consume the packet whole and execute it; the
illegal command is answered; with no whole packet present nothing happens (log entry 2). -/
def step (s : State) : Host.Outcome State Fault Refusal :=
  match decode s.cmdPort with
  | .command i rest => exec i (consumeTo rest s)
  | .illegal _ rest => .next (illegalCommand (consumeTo rest s))
  | .incomplete => .next s

/-- `s` with the packet of an opcode-table word presented ahead of everything on the command port. -/
def State.withFetchWord (s : State) (nbits w : Nat) : State := placePacket nbits w s

end Sys2Proof.Machine
end

