-- ==== Sys2Proof/Machine/Assembler.lean ====
section
/-! DEFINITION. The written form of commands and responses (30_encoding.md R60, R61; log entry 17): each line of the syntax, the
packet it assembles to, and the text of a response. -/

namespace Sys2Proof.Machine

/-- One line of R60's syntax, its quoted text as characters. -/
inductive AsmLine where
  /-- `COMPILE "text"`. -/
  | compileText (text : List Char)
  /-- `COMPILE [h0 h1 ..]`. -/
  | compileBytes (bytes : List Byte)
  /-- `COMPILE len=k [h0 h1 ..]`: `LEN` forced to `k`, exactly `k` bytes listed. -/
  | compileForced (k : Nat) (bytes : List Byte)
  /-- `RESET s`. -/
  | reset (sid : SessionId)
  /-- The pseudo-command `NEWSESSION s` (R61). -/
  | newsession (sid : SessionId)
  /-- `GETLEN s`. -/
  | getlen (sid : SessionId)
  /-- `HASPEND s`. -/
  | haspend (sid : SessionId)
  /-- `NEXTOFF s`. -/
  | nextoff (sid : SessionId)
  /-- `STEPB s, 'c'`. -/
  | stepbChar (sid : SessionId) (c : Char)
  /-- `STEPB s, 0xhh`. -/
  | stepbByte (sid : SessionId) (b : Byte)
  /-- `STEPW s, "8 chars"`. -/
  | stepwText (sid : SessionId) (text : List Char)
  /-- `STEPW s, [h0 .. h7]`. -/
  | stepwBytes (sid : SessionId) (bytes : List Byte)
deriving DecidableEq, Repr

/-- The ASCII code of a character; none where it has none. -/
def asciiByte (c : Char) : Option Byte := if c.toNat < 128 then some (BitVec.ofNat 8 c.toNat) else none

/-- The ASCII bytes of a text (R60). -/
def asciiBytes : List Char → Option (List Byte)
  | [] => some []
  | c :: cs =>
    match asciiByte c, asciiBytes cs with
    | some b, some bs => some (b :: bs)
    | _, _ => none

/-- A needle whose length `LEN` can carry. -/
def needleCommand (bytes : List Byte) : Option Instr :=
  if bytes.length ≤ 255 then some (.compile bytes) else none

/-- Eight listed bytes as the word of `STEPW` (R60: "in stream order"). -/
def wordCommand (sid : SessionId) (bytes : List Byte) : Option Instr :=
  if bytes.length = 8 then some (.stepw sid (wordOfBytes bytes)) else none

/-- The command a line stands for; none where it is not a line of R60. -/
def AsmLine.command : AsmLine → Option Instr
  | .compileText text => (asciiBytes text).bind needleCommand
  | .compileBytes bytes => needleCommand bytes
  | .compileForced k bytes => if k = bytes.length then needleCommand bytes else none
  | .reset sid => some (.reset sid)
  | .newsession sid => some (.newsession sid)
  | .getlen sid => some (.getlen sid)
  | .haspend sid => some (.haspend sid)
  | .nextoff sid => some (.nextoff sid)
  | .stepbChar sid c => (asciiByte c).map (fun b => .stepb sid b)
  | .stepbByte sid b => some (.stepb sid b)
  | .stepwText sid text => (asciiBytes text).bind (wordCommand sid)
  | .stepwBytes sid bytes => wordCommand sid bytes

/-- The packet a line assembles to (R60, R61, R62). -/
def AsmLine.assemble (l : AsmLine) : Option (List Byte) := l.command.map encode

/-- The name of a status (R97). -/
def Status.name : Status → String
  | .ok => "OK"
  | .invalidPattern => "INVALID_PATTERN"
  | .precondition => "PRECONDITION"
  | .noTable => "NO_TABLE"
  | .badSession => "BAD_SESSION"
  | .illegalCommand => "ILLEGAL_COMMAND"

/-- The text of a response (R60): `-> OK 1`, `-> INVALID_PATTERN max=57 got=58`. -/
def Response.text (r : Response) : String :=
  "-> " ++ r.st.name ++
    (if r.st = .invalidPattern then
      " max=" ++ toString (r.val.extractLsb' 8 8).toNat ++ " got=" ++ toString (r.val.extractLsb' 0 8).toNat
    else " " ++ toString r.val.toNat)

end Sys2Proof.Machine
end

