-- ==== Sys2Proof/Safety.lean ====
section
/-! DEFINITION. The terms claims use: when a command runs its own rule, what a host owes the block
(70_reset_and_hazards.md R116), the invariant of the state (10_state.md R27), runs of commands, and the naive matcher a
session is compared with (42_step.md R80). -/

namespace Sys2Proof.Safety

open Sys2Proof.Machine

/-! ### Readiness and the host's duties -/

/-- A session command passes the common checks of R104: the context exists and a table is valid. -/
def Ready (sid : SessionId) (s : State) : Prop := sid.toNat < Config.nSess ∧ s.block.tv = true

/-- The duties of R116 that the state can tell: H1 (a needle of 1 to 57 bytes, and a valid table before anything else),
an existing session id (R51), H2 (drain before stepping) and H3 (`NEXTOFF` only while draining). -/
def honours (i : Instr) (s : State) : Prop :=
  match i with
  | .compile needle => 1 ≤ needle.length ∧ needle.length ≤ 57
  | .reset sid => Ready sid s
  | .stepb sid _ => Ready sid s ∧ s.pend sid = 0
  | .stepw sid _ => Ready sid s ∧ s.pend sid = 0
  | .haspend sid => Ready sid s
  | .nextoff sid => Ready sid s ∧ s.pend sid ≠ 0
  | .getlen sid => Ready sid s

/-! ### Frames and statuses -/

/-- Nothing but the two registers of session `sid` and the response port differs: every table entry, the table's
constants, `TV`, every other session and the command port are as before. -/
structure SessionFrame (sid : SessionId) (s t : State) : Prop where
  masks : ∀ i : Index, t.mask i = s.mask i
  nlen : t.block.nlen = s.block.nlen
  ssm : t.block.ssm = s.block.ssm
  bsm : t.block.bsm = s.block.bsm
  tv : t.block.tv = s.block.tv
  sessions : ∀ r : SessionId, r ≠ sid → t.prog r = s.prog r ∧ t.pend r = s.pend r
  cmdPort : t.cmdPort = s.cmdPort

/-- "Statuses: only the common ones" (41_session.md and after): one response, `OK`, `NO_TABLE` or `BAD_SESSION`. -/
def OnlyCommonStatuses (i : Instr) : Prop :=
  ∀ s : State, ∃ t r, exec i s = .next t ∧ t.responses = s.responses ++ [r] ∧
    (r.st = .ok ∨ r.st = .noTable ∨ r.st = .badSession)

/-! ### The invariant of R27 -/

/-- R27's four clauses, the canonical form of the table, and that ids which name no context hold nothing. -/
structure BlockInv (b : Block) : Prop where
  /-- The mask table is in canonical form. -/
  memory : b.mt.wf
  /-- R27.1: `PEND[s] <= 0xFF`. -/
  pendByte : ∀ sid : SessionId, (b.session sid).pend ≤ 0xFF
  /-- R27.2: `1 <= NLEN <= 57`. -/
  length : b.tv = true → 1 ≤ b.nlen.toNat ∧ b.nlen.toNat ≤ 57
  /-- R27.2: `SSM = 1 << (NLEN-1)`. -/
  ssm : b.tv = true → b.ssm = (1 : Word) <<< (b.nlen.toNat - 1)
  /-- R27.2: `BSM = 0xFF << (NLEN-1)`. -/
  bsm : b.tv = true → b.bsm = (0xFF : Word) <<< (b.nlen.toNat - 1)
  /-- R27.2: `MT[256] = ONES`. -/
  sentinel : b.tv = true → b.mask sentIndex = ones
  /-- R27.2: every `MT[v]` has all bits `>= NLEN` set. -/
  permissiveBits : b.tv = true → ∀ (v : Byte) (p : Nat), b.nlen.toNat ≤ p → p < 64 →
    (b.mask (byteIndex v)).getLsbD p = true
  /-- R27.3: for every bit `p < NLEN` exactly one `v` has `MT[v][p] = 1`. -/
  oneByte : b.tv = true → ∀ p : Nat, p < b.nlen.toNat → ∃ v : Byte, ∀ u : Byte,
    (b.mask (byteIndex u)).getLsbD p = true ↔ u = v
  /-- R27.4: with no table every session is in its initial state. -/
  noTable : b.tv = false → ∀ sid : SessionId, b.session sid = Session.zero
  /-- Ids of `N_SESS` or more name no context and hold nothing (log entry 4). -/
  absent : ∀ sid : SessionId, Config.nSess ≤ sid.toNat → b.session sid = Session.zero

/-! ### Runs of commands -/

/-- The commands of a list executed in order (20_memory.md R38), as a run from `s`. -/
def execAll : List Instr → State → Host.Outcome State Fault Refusal
  | [], s => .next s
  | i :: is, s =>
    match exec i s with
    | .next t => execAll is t
    | .fault f => .fault f
    | .refused r => .refused r

/-! ### Needles and streams (R14, R17, R80) -/

/-- The table is the compiled table of `needle` (R17, R18, R66). -/
structure TableOf (needle : List Byte) (b : Block) : Prop where
  valid : b.tv = true
  atLeastOne : 1 ≤ needle.length
  atMost57 : needle.length ≤ 57
  nlen : b.nlen.toNat = needle.length
  ssm : b.ssm = (1 : Word) <<< (needle.length - 1)
  bsm : b.bsm = (0xFF : Word) <<< (needle.length - 1)
  sentinel : b.mask sentIndex = ones
  masks : ∀ (v : Byte) (p : Nat), p < 64 →
    ((b.mask (byteIndex v)).getLsbD p = true ↔ needle.length ≤ p ∨ needle[p]? = some v)

/-- What a progress register holds after the bytes `xs` (R14): a live bit `p` says that the last `p+1` bytes are the
needle's first `p+1`; a history bit `p` says that the needle ended `p-(m-1)` bytes ago. -/
structure ProgressOf (needle xs : List Byte) (prog : Word) : Prop where
  live : ∀ p : Nat, p < needle.length → (prog.getLsbD p = true ↔ needle.take (p + 1) <:+ xs)
  history : ∀ p : Nat, needle.length ≤ p → p < 64 →
    (prog.getLsbD p = true ↔
      p - (needle.length - 1) ≤ xs.length ∧ needle <:+ xs.take (xs.length - (p - (needle.length - 1))))

/-! ### The naive matcher -/

/-- A scan as its host sees it: the bytes consumed since the last reset, and the sub-offsets of the last batch step not
yet reported, latest first. It keeps the whole stream, which the block never does (R24). -/
structure Scan where
  consumed : List Byte
  pending : List Nat

/-- The naive matcher: the needle, and every session's scan. -/
structure Naive where
  needle : List Byte
  scan : SessionId → Scan

/-- A completion at the last byte of `xs`: the stream ends with the needle (R80). -/
def completes (needle xs : List Byte) : Bool := needle.isSuffixOf xs

/-- The sub-offsets, latest first, at which a word of eight bytes completes the needle (R83, R94). -/
def wordCompletions (needle xs bs : List Byte) : List Nat :=
  [8, 7, 6, 5, 4, 3, 2, 1].filter (fun j => completes needle (xs ++ bs.take j))

/-- One session's scan replaced. -/
def Naive.setScan (n : Naive) (sid : SessionId) (x : Scan) : Naive :=
  { n with scan := fun r => if r = sid then x else n.scan r }

/-- The naive matcher's answer to a command of a ready session, or to a `COMPILE` of a legal needle, and what it knows
afterwards: SSA's contracts, by searching the stream itself. -/
def Naive.run (n : Naive) : Instr → Response × Naive
  | .compile needle => (⟨.ok, 0⟩, ⟨needle, fun _ => ⟨[], []⟩⟩)
  | .reset sid => (⟨.ok, 0⟩, n.setScan sid ⟨[], []⟩)
  | .stepb sid b =>
    let xs := (n.scan sid).consumed ++ [b]
    (⟨.ok, if completes n.needle xs then 0 else 1⟩, n.setScan sid ⟨xs, (n.scan sid).pending⟩)
  | .stepw sid w =>
    let xs := (n.scan sid).consumed
    let ends := wordCompletions n.needle xs (wordBytes w)
    (⟨.ok, if ends = [] then 1 else 0⟩, n.setScan sid ⟨xs ++ wordBytes w, ends⟩)
  | .haspend sid => (⟨.ok, if (n.scan sid).pending = [] then 0 else 1⟩, n)
  | .nextoff sid =>
    match (n.scan sid).pending with
    | [] => (⟨.precondition, 0⟩, n)
    | j :: js => (⟨.ok, BitVec.ofNat 16 j⟩, n.setScan sid ⟨(n.scan sid).consumed, js⟩)
  | .getlen _ => (⟨.ok, BitVec.ofNat 16 n.needle.length⟩, n)

/-- The naive matcher's answers to a list of commands, in order. -/
def Naive.answers (n : Naive) : List Instr → List Response
  | [] => []
  | i :: is => (n.run i).1 :: (n.run i).2.answers is

/-- A command the naive matcher answers: it names an existing session, or compiles a needle of a legal length. -/
def answerable (i : Instr) : Prop :=
  match i with
  | .compile needle => 1 ≤ needle.length ∧ needle.length ≤ 57
  | .reset sid => sid.toNat < Config.nSess
  | .stepb sid _ => sid.toNat < Config.nSess
  | .stepw sid _ => sid.toNat < Config.nSess
  | .haspend sid => sid.toNat < Config.nSess
  | .nextoff sid => sid.toNat < Config.nSess
  | .getlen sid => sid.toNat < Config.nSess

/-- The block holds what the naive matcher knows: its table is the needle's, and every context's two registers are the
scan's stream and pending sub-offsets. -/
structure Tracks (n : Naive) (b : Block) : Prop where
  table : TableOf n.needle b
  progress : ∀ sid : SessionId, sid.toNat < Config.nSess → ProgressOf n.needle (n.scan sid).consumed (b.session sid).prog
  descending : ∀ sid : SessionId, (n.scan sid).pending.Pairwise (· > ·)
  range : ∀ sid : SessionId, ∀ j ∈ (n.scan sid).pending, 1 ≤ j ∧ j ≤ 8
  pending : ∀ sid : SessionId, sid.toNat < Config.nSess → ∀ k : Nat, k < 64 →
    ((b.session sid).pend.getLsbD k = true ↔ k + 1 ∈ (n.scan sid).pending)

end Sys2Proof.Safety
end

