-- ==== Sys2Proof/Certificates/Slice0/Obligations.lean ====
section
/-! DEFINITION. The statements for the provers, from the numbered rules of spec/. Unless a docstring says otherwise a
statement is about every state, reachable or not; where it needs the invariant `BlockInv`, that is a premise, and
`EveryStepKeepsBlockInvariant` states it. -/

open Sys2Proof Sys2Proof.Machine Sys2Proof.Safety

/-! ### Reset and the invariant -/

/-- R25: what power-on reset leaves where the rule gives a value, for the contexts the instance has. -/
def Obligations.PowerOnResetLeavesZeroSessionsAndNoTable : Prop :=
  State.reset.block.tv = false ∧
    ∀ sid : SessionId, sid.toNat < Config.nSess → State.reset.prog sid = 0 ∧ State.reset.pend sid = 0

/-- The invariant of 10_state.md section 4 (R27, which the spec marks as derived), with the canonical form of the table
(log entry 7) and the empty slots of log entry 4, holds after power-on reset. -/
def Obligations.PowerOnResetMeetsBlockInvariant : Prop := BlockInv State.reset.block

/-- The same invariant is "kept by every command" (10_state.md section 4): by every step from every state. -/
def Obligations.EveryStepKeepsBlockInvariant : Prop :=
  ∀ s t : State, BlockInv s.block → step s = .next t → BlockInv t.block

/-! ### Encoding -/

/-- 30_encoding.md sections 2 and 3: decoding a well-formed command's packet gives the command back and leaves what
follows the packet, with every operand at every value. -/
def Obligations.DecodeInvertsEncode : Prop :=
  ∀ (i : Instr) (rest : List Byte), i.wellFormed = true → decode (encode i ++ rest) = .command i rest

/-- 30_encoding.md sections 2 and 3: the bytes a command is decoded from are its own packet; no other packet decodes to
it. -/
def Obligations.DecodedCommandsAreTheirOwnPackets : Prop :=
  ∀ (bs : List Byte) (i : Instr) (rest : List Byte), decode bs = .command i rest →
    i.wellFormed = true ∧ bs = encode i ++ rest

/-- 30_encoding.md section 2: no header selects two rows of the opcode map. -/
def Obligations.OpcodeRowsAreDisjoint : Prop :=
  ∀ (h : BitVec 16) (r q : OpcodeRow), r ∈ opcodeTable → q ∈ opcodeTable →
    r.selects h = true → q.selects h = true → r.mnemonic = q.mnemonic

/-- R47 and R59: the packet's length from the header alone, and the decode procedure, with the rows of R48 and the
operands of R50 written out on the header `H = {byte 1, byte 0}`. Where no command is present, whatever next state a
step answers is the state before it, with no response; that a step then exists and answers one is the model's choice (log
entry 2), which `EveryWholePacketGetsOneResponse` states and this does not. -/
def Obligations.DecodeFollowsPacketProcedure : Prop :=
  (∀ bs : List Byte, bs.length < 2 → decode bs = .incomplete) ∧
  (∀ (b0 b1 : Byte) (rest : List Byte) (h : BitVec 16) (sid : SessionId) (n : Nat),
    h = b1 ++ b0 → sid = b0.extractLsb' 4 4 →
    n = (if h &&& 0x000F = 0x0001 then b1.toNat else if h &&& 0x000F = 0x0003 then 1
      else if h &&& 0x000F = 0x0004 then 8 else 0) →
    (rest.length < n → decode (b0 :: b1 :: rest) = .incomplete) ∧
    (n ≤ rest.length →
      (h &&& 0x00FF = 0x0001 → decode (b0 :: b1 :: rest) = .command (.compile (rest.take n)) (rest.drop n)) ∧
      (h &&& 0xFF0F = 0x0002 → decode (b0 :: b1 :: rest) = .command (.reset sid) (rest.drop n)) ∧
      (h &&& 0xFF0F = 0x0003 → ∀ b : Byte, rest[0]? = some b →
        decode (b0 :: b1 :: rest) = .command (.stepb sid b) (rest.drop n)) ∧
      (h &&& 0xFF0F = 0x0004 → ∀ w : Word, (∀ k < 8, rest[k]? = some (w.extractLsb' (8 * k) 8)) →
        decode (b0 :: b1 :: rest) = .command (.stepw sid w) (rest.drop n)) ∧
      (h &&& 0xFF0F = 0x0005 → decode (b0 :: b1 :: rest) = .command (.haspend sid) (rest.drop n)) ∧
      (h &&& 0xFF0F = 0x0006 → decode (b0 :: b1 :: rest) = .command (.nextoff sid) (rest.drop n)) ∧
      (h &&& 0xFF0F = 0x0007 → decode (b0 :: b1 :: rest) = .command (.getlen sid) (rest.drop n)) ∧
      (h &&& 0x00FF ≠ 0x0001 → (∀ op : BitVec 16, 2 ≤ op → op ≤ 7 → h &&& 0xFF0F ≠ op) →
        ∃ why, decode (b0 :: b1 :: rest) = .illegal why (rest.drop n)))) ∧
  (∀ s t : State, decode s.cmdPort = .incomplete → step s = .next t → t = s)

/-- 30_encoding.md section 7 (R62): every row of the worked encodings, command and response. -/
def Obligations.WorkedEncodingsAreTheSpecs : Prop :=
  (AsmLine.compileText ['a', 'a']).assemble = some [0x01, 0x02, 0x61, 0x61] ∧
  (AsmLine.compileText ['a', 'b', 'c']).assemble = some [0x01, 0x03, 0x61, 0x62, 0x63] ∧
  (AsmLine.compileForced 0 []).assemble = some [0x01, 0x00] ∧
  (AsmLine.reset 0).assemble = some [0x02, 0x00] ∧
  (AsmLine.reset 1).assemble = some [0x12, 0x00] ∧
  (AsmLine.newsession 1).assemble = some [0x12, 0x00] ∧
  (AsmLine.stepbChar 0 'a').assemble = some [0x03, 0x00, 0x61] ∧
  (AsmLine.stepbByte 1 0x00).assemble = some [0x13, 0x00, 0x00] ∧
  (AsmLine.stepwText 0 ['a', 'a', 'a', 'a', 'x', 'x', 'x', 'x']).assemble =
    some [0x04, 0x00, 0x61, 0x61, 0x61, 0x61, 0x78, 0x78, 0x78, 0x78] ∧
  decode [0x04, 0x00, 0x61, 0x61, 0x61, 0x61, 0x78, 0x78, 0x78, 0x78] = .command (.stepw 0 0x7878787861616161) [] ∧
  (AsmLine.haspend 0).assemble = some [0x05, 0x00] ∧
  (AsmLine.nextoff 0).assemble = some [0x06, 0x00] ∧
  (AsmLine.getlen 0).assemble = some [0x07, 0x00] ∧
  decode [0x09, 0x00] = .illegal .reservedOp [] ∧
  step { State.reset with cmdPort := [0x09, 0x00] } =
    .next { State.reset with responses := [⟨.illegalCommand, 0⟩] } ∧
  Response.packet ⟨.ok, 0⟩ = [0x00, 0x00, 0x00] ∧
  Response.packet ⟨.ok, 1⟩ = [0x00, 0x01, 0x00] ∧
  Response.packet ⟨.ok, 4⟩ = [0x00, 0x04, 0x00] ∧
  Response.packet ⟨.invalidPattern, 0x393A⟩ = [0x01, 0x3A, 0x39] ∧
  Response.packet ⟨.precondition, 0⟩ = [0x02, 0x00, 0x00] ∧
  Response.packet ⟨.noTable, 0⟩ = [0x03, 0x00, 0x00] ∧
  Response.packet ⟨.badSession, 0⟩ = [0x04, 0x00, 0x00] ∧
  Response.packet ⟨.illegalCommand, 0⟩ = [0x05, 0x00, 0x00]

/-- R56: the fields of the 3-byte response packet. -/
def Obligations.ResponsePacketCarriesStatusThenValue : Prop :=
  ∀ r : Response, ∃ b0 b1 b2 : Byte, r.packet = [b0, b1, b2] ∧
    b0.extractLsb' 0 4 = r.st.code ∧ b0.extractLsb' 4 4 = 0 ∧
    b1 = r.val.extractLsb' 0 8 ∧ b2 = r.val.extractLsb' 8 8

/-! ### The step -/

/-- A step runs the decoded command on the state from whose port its packet has been consumed, and adds nothing to it
(00_scope.md section 4, 20_memory.md section 5). -/
def Obligations.StepRunsTheDecodedCommand : Prop :=
  ∀ (s : State) (i : Instr) (rest : List Byte), decode s.cmdPort = .command i rest →
    step s = exec i { s with cmdPort := rest }

/-- The model's own interface (log entry 1): a word placed by `withFetchWord` is the next command run, and the port is
left as it was before. -/
def Obligations.PlacedWordRunsNext : Prop :=
  ∀ (nbits w : Nat) (i : Instr) (s : State), decodeTableWord nbits w = some i →
    step (s.withFetchWord nbits w) = exec i s

/-- R53, R54, R103: a whole packet with a reserved opcode, or with a legal opcode and a non-zero reserved field, is
consumed at the length R47 gives and answered `ILLEGAL_COMMAND 0`, with no state changed. -/
def Obligations.IllegalPacketsAreConsumedAndAnswered : Prop :=
  ∀ (s : State) (b0 b1 : Byte) (rest : List Byte) (op : BitVec 4) (n : Nat), s.cmdPort = b0 :: b1 :: rest →
    op = b0.extractLsb' 0 4 → n = (if op = 3 then 1 else if op = 4 then 8 else 0) →
    ((op = 0 ∨ 8 ≤ op) →
      step s = .next ⟨s.block, rest, s.responses ++ [⟨.illegalCommand, 0⟩]⟩) ∧
    (op = 1 → b0.extractLsb' 4 4 ≠ 0 → b1.toNat ≤ rest.length →
      step s = .next ⟨s.block, rest.drop b1.toNat, s.responses ++ [⟨.illegalCommand, 0⟩]⟩) ∧
    (2 ≤ op → op ≤ 7 → b1 ≠ 0 → n ≤ rest.length →
      step s = .next ⟨s.block, rest.drop n, s.responses ++ [⟨.illegalCommand, 0⟩]⟩)

/-- 60_exceptions.md section 2 and 30_encoding.md section 1: every step answers a next state; a whole packet gets
exactly one response, and with no whole packet nothing happens (that a step then exists at all is the model's choice,
log entry 2). -/
def Obligations.EveryWholePacketGetsOneResponse : Prop :=
  ∀ s : State, ∃ t, step s = .next t ∧
    (decode s.cmdPort = .incomplete → t = s) ∧
    (decode s.cmdPort ≠ .incomplete → ∃ r, t.responses = s.responses ++ [r])

/-- R100: a command that ends with a status other than `OK` writes no state of the block. -/
def Obligations.ErrorsWriteNoState : Prop :=
  ∀ (s t : State) (r : Response), step s = .next t → t.responses = s.responses ++ [r] → r.st ≠ .ok →
    t.block = s.block

/-- R22: the table and its constants change in no step but a successful `COMPILE`, which zeroes every context of the
instance. -/
def Obligations.TableChangesOnlyAtCompile : Prop :=
  ∀ s t : State, step s = .next t →
    (∃ needle rest, decode s.cmdPort = .command (.compile needle) rest ∧ 1 ≤ needle.length ∧ needle.length ≤ 57 ∧
      ∀ sid : SessionId, sid.toNat < Config.nSess → t.prog sid = 0 ∧ t.pend sid = 0) ∨
    ((∀ i : Index, t.mask i = s.mask i) ∧ t.block.nlen = s.block.nlen ∧ t.block.ssm = s.block.ssm ∧
      t.block.bsm = s.block.bsm ∧ t.block.tv = s.block.tv)

/-- 10_state.md section 2 (R20): `TV` is set by a successful `COMPILE` and by nothing else, and no step clears it. -/
def Obligations.TableValidFlagSetExactlyByCompile : Prop :=
  ∀ s t : State, step s = .next t →
    (t.block.tv = true ↔ s.block.tv = true ∨
      ∃ needle rest, decode s.cmdPort = .command (.compile needle) rest ∧ 1 ≤ needle.length ∧ needle.length ≤ 57)

/-! ### The checks common to the session commands, and statuses -/

/-- R101, R102: `BAD_SESSION` before `NO_TABLE`, each with `VAL = 0` and nothing written, for every session command. -/
def Obligations.SessionThenTableAreChecked : Prop :=
  ∀ (i : Instr) (sid : SessionId) (s : State), i.session? = some sid →
    (Config.nSess ≤ sid.toNat →
      exec i s = .next ⟨s.block, s.cmdPort, s.responses ++ [⟨.badSession, 0⟩]⟩) ∧
    (sid.toNat < Config.nSess → s.block.tv = false →
      exec i s = .next ⟨s.block, s.cmdPort, s.responses ++ [⟨.noTable, 0⟩]⟩)

/-- R107: with a table and an existing session no command but `NEXTOFF` and `COMPILE` can fail, and those two only in
their own way. -/
def Obligations.ReadyCommandsFailOnlyInTheirOwnWay : Prop :=
  (∀ (i : Instr) (sid : SessionId) (s : State), i.session? = some sid → Ready sid s →
    ∃ t val, exec i s = .next t ∧ (t.responses = s.responses ++ [⟨.ok, val⟩] ∨
      (i = .nextoff sid ∧ t.responses = s.responses ++ [⟨.precondition, val⟩]))) ∧
  ∀ (needle : List Byte) (s : State), ∃ t val, exec (.compile needle) s = .next t ∧
    (t.responses = s.responses ++ [⟨.ok, val⟩] ∨ t.responses = s.responses ++ [⟨.invalidPattern, val⟩])

/-- 30_encoding.md section 5 and 60_exceptions.md section 1 (R57, R97): which statuses a well-formed command can answer
and what `VAL` holds with each. The ranges of `GETLEN` and `NEXTOFF` rest on the invariant. -/
def Obligations.ResponseValuesFollowTheTable : Prop :=
  ∀ (i : Instr) (s t : State) (r : Response), i.wellFormed = true → BlockInv s.block → exec i s = .next t →
    t.responses = s.responses ++ [r] →
    ((r.st = .noTable ∨ r.st = .badSession) ∧ i.session? ≠ none ∧ r.val = 0) ∨
    (match i with
     | .compile needle => (r.st = .ok ∧ r.val = 0) ∨
        (r.st = .invalidPattern ∧ r.val.extractLsb' 8 8 = 57 ∧ (r.val.extractLsb' 0 8).toNat = needle.length)
     | .reset _ => r.st = .ok ∧ r.val = 0
     | .stepb _ _ => r.st = .ok ∧ (r.val = 0 ∨ r.val = 1)
     | .stepw _ _ => r.st = .ok ∧ (r.val = 0 ∨ r.val = 1)
     | .haspend _ => r.st = .ok ∧ (r.val = 0 ∨ r.val = 1)
     | .nextoff _ => (r.st = .ok ∧ 1 ≤ r.val.toNat ∧ r.val.toNat ≤ 8) ∨ (r.st = .precondition ∧ r.val = 0)
     | .getlen _ => r.st = .ok ∧ r.val.toNat = s.block.nlen.toNat ∧ 1 ≤ r.val.toNat ∧ r.val.toNat ≤ 57)

/-- 70_reset_and_hazards.md section 3: a host that keeps the duties the state can tell is answered `OK` by every
command. -/
def Obligations.HonouredCommandsAnswerOk : Prop :=
  ∀ (i : Instr) (s : State), honours i s →
    ∃ t val, exec i s = .next t ∧ t.responses = s.responses ++ [⟨.ok, val⟩]

/-- R16: a session command writes no other session's registers, and reads none: two states that agree on the table and
on its own session give the same response and the same new registers of that session. A `COMPILE`, which names no
session, zeroes every context of the instance or changes none. -/
def Obligations.OtherSessionsAreNeitherWrittenNorRead : Prop :=
  (∀ (needle : List Byte) (s t : State), exec (.compile needle) s = .next t →
    (∀ r : SessionId, r.toNat < Config.nSess → t.prog r = 0 ∧ t.pend r = 0) ∨ t.block = s.block) ∧
  ∀ (i : Instr) (sid : SessionId) (s t : State), i.session? = some sid → exec i s = .next t →
    (∀ r : SessionId, r ≠ sid → t.prog r = s.prog r ∧ t.pend r = s.pend r) ∧
    ∀ u v : State, (∀ k : Index, u.mask k = s.mask k) → u.block.nlen = s.block.nlen → u.block.ssm = s.block.ssm →
      u.block.bsm = s.block.bsm → u.block.tv = s.block.tv → u.prog sid = s.prog sid → u.pend sid = s.pend sid →
      exec i u = .next v →
      v.prog sid = t.prog sid ∧ v.pend sid = t.pend sid ∧
        ∃ r, t.responses = s.responses ++ [r] ∧ v.responses = u.responses ++ [r]

/-! ### COMPILE -/

/-- R64: a needle of another length is refused with nothing written; for a needle of a legal length, what `COMPILE`
leaves in every entry, constant, flag and context, and its response. The premise on the table's form is part of the
invariant. -/
def Obligations.CompileInstallsTheNeedlesTable : Prop :=
  ∀ (needle : List Byte) (s : State), s.block.mt.wf →
    (needle.length ≤ 255 → needle.length < 1 ∨ 57 < needle.length →
      exec (.compile needle) s = .next ⟨s.block, s.cmdPort,
        s.responses ++ [⟨.invalidPattern, (57 : BitVec 8) ++ BitVec.ofNat 8 needle.length⟩]⟩) ∧
    (1 ≤ needle.length → needle.length ≤ 57 → ∃ t, exec (.compile needle) s = .next t ∧
      (∀ (v : Byte) (p : Nat), p < 64 →
        ((t.mask (byteIndex v)).getLsbD p = true ↔ needle.length ≤ p ∨ needle[p]? = some v)) ∧
      t.mask sentIndex = ones ∧
      t.block.nlen.toNat = needle.length ∧
      t.block.ssm = (1 : Word) <<< (needle.length - 1) ∧
      t.block.bsm = (0xFF : Word) <<< (needle.length - 1) ∧
      t.block.tv = true ∧
      (∀ sid : SessionId, sid.toNat < Config.nSess → t.prog sid = 0 ∧ t.pend sid = 0) ∧
      t.cmdPort = s.cmdPort ∧ t.responses = s.responses ++ [⟨.ok, 0⟩])

/-- R65, on the packet: a length `LEN` of 0 or of 58 and more is reported with the maximum, the `LEN` payload bytes are
consumed and ignored, and nothing is written, not even `TV`; a length of 1 to 57 succeeds. -/
def Obligations.CompileRefusesBadLengths : Prop :=
  ∀ (s : State) (len : Byte) (payload rest : List Byte), s.cmdPort = 0x01 :: len :: (payload ++ rest) →
    payload.length = len.toNat →
    (len = 0 ∨ 58 ≤ len → ∃ val : BitVec 16, val.extractLsb' 8 8 = 57 ∧ val.extractLsb' 0 8 = len ∧
      step s = .next ⟨s.block, rest, s.responses ++ [⟨.invalidPattern, val⟩]⟩) ∧
    (1 ≤ len → len ≤ 57 → ∃ t, step s = .next t ∧ t.cmdPort = rest ∧ t.responses = s.responses ++ [⟨.ok, 0⟩])

/-- 40_compile.md section 1 (R70): a successful `COMPILE` leaves the same block whatever block it started from, and
doing it again changes nothing more. R70 gives equal tables and zeroed contexts; that the whole blocks are equal rests
besides on two choices of the model: all 16 slots are zeroed, also those that name no context (log entry 4), and equal
tables are equal lists, by the canonical form (log entry 7). -/
def Obligations.CompileIsAPureFunctionOfTheNeedle : Prop :=
  ∀ (needle : List Byte) (s u : State), s.block.mt.wf → u.block.mt.wf → 1 ≤ needle.length → needle.length ≤ 57 →
    ∃ t v t', exec (.compile needle) s = .next t ∧ exec (.compile needle) u = .next v ∧
      exec (.compile needle) t = .next t' ∧ t.block = v.block ∧ t'.block = t.block

/-! ### RESET and GETLEN -/

/-- R71: `RESET s` zeroes both registers of its session and nothing else. -/
def Obligations.ResetCommandZeroesItsSession : Prop :=
  ∀ sid : SessionId, encode (.reset sid) = [sid ++ (0x2 : BitVec 4), 0x00] ∧ OnlyCommonStatuses (.reset sid) ∧
    ∀ s : State, Ready sid s → ∃ t, exec (.reset sid) s = .next t ∧ t.prog sid = 0 ∧ t.pend sid = 0 ∧
      SessionFrame sid s t ∧ t.responses = s.responses ++ [⟨.ok, 0⟩]

/-- R73: `GETLEN s` returns the needle length, the same for every session, in 1..57, and writes nothing; no session
command changes that length. -/
def Obligations.GetlenReturnsTheNeedleLength : Prop :=
  ∀ sid : SessionId, encode (.getlen sid) = [sid ++ (0x7 : BitVec 4), 0x00] ∧ OnlyCommonStatuses (.getlen sid) ∧
    ∀ s : State, Ready sid s → exec (.getlen sid) s =
      .next ⟨s.block, s.cmdPort, s.responses ++ [⟨.ok, s.block.nlen.setWidth 16⟩]⟩ ∧
      (BlockInv s.block → 1 ≤ (s.block.nlen.setWidth 16).toNat ∧ (s.block.nlen.setWidth 16).toNat ≤ 57) ∧
      ∀ (i : Instr) (t : State), i.session? ≠ none → exec i s = .next t → t.block.nlen = s.block.nlen

/-! ### STEPB and STEPW -/

/-- R76: the new progress value bit by bit, the result, and everything the command leaves alone (`PEND` included). -/
def Obligations.StepbAdvancesOneByte : Prop :=
  ∀ (sid : SessionId) (b : Byte), encode (.stepb sid b) = [sid ++ (0x3 : BitVec 4), 0x00, b] ∧
    OnlyCommonStatuses (.stepb sid b) ∧
    ∀ s : State, Ready sid s → ∃ t, exec (.stepb sid b) s = .next t ∧
      (t.prog sid).getLsbD 0 = (s.mask (byteIndex b)).getLsbD 0 ∧
      (∀ p : Nat, 1 ≤ p → p < 64 →
        (t.prog sid).getLsbD p = ((s.prog sid).getLsbD (p - 1) && (s.mask (byteIndex b)).getLsbD p)) ∧
      t.pend sid = s.pend sid ∧ SessionFrame sid s t ∧
      t.responses = s.responses ++ [⟨.ok, if t.prog sid &&& s.block.ssm = 0 then 1 else 0⟩]

/-- 42_step.md section 2 (R79, R82, R85): eight updates in stream order, the sentinel, the window unpacked into `PEND`,
which is always written, and the result. `P` is R79's sequence of temporaries. The layout (bit `j-1` of `PEND` is window
bit `8-j`) is R82's, derived there, and log entry 13; the shift by `NLEN-1` on a ready state with `NLEN = 0`, which no run
reaches, is the model's (log entry 10). -/
def Obligations.StepwAdvancesEightBytes : Prop :=
  ∀ (sid : SessionId) (w : Word),
    encode (.stepw sid w) = [sid ++ (0x4 : BitVec 4), 0x00] ++ (List.range 8).map (fun i => w.extractLsb' (8 * i) 8) ∧
    OnlyCommonStatuses (.stepw sid w) ∧
    ∀ (s : State) (P : Nat → Word), Ready sid s → P 0 = s.prog sid →
      (∀ i < 8, P (i + 1) = ((P i <<< 1) ||| (1 : Word)) &&& s.mask (byteIndex (w.extractLsb' (8 * i) 8))) →
      ∃ t, exec (.stepw sid w) s = .next t ∧
        t.prog sid = P 8 &&& s.mask sentIndex ∧
        (∀ j : Nat, 1 ≤ j → j ≤ 8 → (t.pend sid).getLsbD (j - 1) =
          ((t.prog sid &&& s.block.bsm) >>> (s.block.nlen.toNat - 1)).getLsbD (8 - j)) ∧
        (∀ k : Nat, 8 ≤ k → (t.pend sid).getLsbD k = false) ∧
        SessionFrame sid s t ∧
        t.responses = s.responses ++ [⟨.ok, if t.prog sid &&& s.block.bsm = 0 then 1 else 0⟩]

/-- 42_step.md section 2 (R81, derived there): the closed form of the batch update equals the iteration, for every table
and every old register. -/
def Obligations.BatchUpdateHasTheClosedForm : Prop :=
  ∀ (s : State) (p w : Word),
    s.advanceBytes p (wordBytes w) &&& s.mask sentIndex =
      ((p <<< 8) ||| (0xFF : Word)) &&&
      ((s.byteMask (wordByte w 0) <<< 7) ||| (0x7F : Word)) &&&
      ((s.byteMask (wordByte w 1) <<< 6) ||| (0x3F : Word)) &&&
      ((s.byteMask (wordByte w 2) <<< 5) ||| (0x1F : Word)) &&&
      ((s.byteMask (wordByte w 3) <<< 4) ||| (0x0F : Word)) &&&
      ((s.byteMask (wordByte w 4) <<< 3) ||| (0x07 : Word)) &&&
      ((s.byteMask (wordByte w 5) <<< 2) ||| (0x03 : Word)) &&&
      ((s.byteMask (wordByte w 6) <<< 1) ||| (0x01 : Word)) &&&
      s.byteMask (wordByte w 7) &&&
      s.mask sentIndex

/-- 42_step.md section 2 (R83, R84, R86): one `STEPW` and the eight `STEPB`s on its bytes leave the same progress
register; its result is the AND of theirs, and it records exactly the sub-offsets at which they report a completion. -/
def Obligations.WordStepEqualsEightByteSteps : Prop :=
  ∀ (sid : SessionId) (w : Word) (s : State), BlockInv s.block → Ready sid s →
    ∃ t u rs, exec (.stepw sid w) s = .next t ∧ execAll ((wordBytes w).map (fun b => .stepb sid b)) s = .next u ∧
      t.prog sid = u.prog sid ∧ u.responses = s.responses ++ rs ∧ rs.length = 8 ∧
      (∀ r ∈ rs, r = ⟨.ok, 0⟩ ∨ r = ⟨.ok, 1⟩) ∧
      (∀ j : Nat, 1 ≤ j → j ≤ 8 → ((t.pend sid).getLsbD (j - 1) = true ↔ rs[j - 1]? = some ⟨.ok, 0⟩)) ∧
      t.responses = s.responses ++ [⟨.ok, if rs.all (fun r => decide (r.val = 1)) then 1 else 0⟩]

/-- 42_step.md section 2 (R88): a step on a draining session advances `PROG` as it would on any other `PEND`; `STEPB`
leaves the old `PEND`, `STEPW` overwrites it with what an idle session would get. The source leaves this open (U1), and
R88 is the spec's reading and decision of it, which the model takes (log entry 8); a host must not rely on it. `s` and
`u` differ in `PEND[sid]` alone. -/
def Obligations.StepsDoNotReadPending : Prop :=
  ∀ (sid : SessionId) (s u : State) (x : Word), Ready sid s → u = s.setPend sid x →
    (∀ b : Byte, ∃ t v r, exec (.stepb sid b) s = .next t ∧ exec (.stepb sid b) u = .next v ∧
      v.prog sid = t.prog sid ∧ t.pend sid = s.pend sid ∧ v.pend sid = x ∧ r.st = .ok ∧
      t.responses = s.responses ++ [r] ∧ v.responses = u.responses ++ [r]) ∧
    (∀ w : Word, ∃ t v r, exec (.stepw sid w) s = .next t ∧ exec (.stepw sid w) u = .next v ∧
      v.prog sid = t.prog sid ∧ v.pend sid = t.pend sid ∧ r.st = .ok ∧
      t.responses = s.responses ++ [r] ∧ v.responses = u.responses ++ [r])

/-- 42_step.md section 2 (R87): under a compiled table every bit from `NLEN` up moves up by one place with each byte
and is never cleared, whatever the byte. -/
def Obligations.CompletionsMoveUpTheHistory : Prop :=
  ∀ (sid : SessionId) (b : Byte) (s : State), BlockInv s.block → Ready sid s →
    ∃ t, exec (.stepb sid b) s = .next t ∧
      ∀ q : Nat, s.block.nlen.toNat ≤ q → q < 64 → (t.prog sid).getLsbD q = (s.prog sid).getLsbD (q - 1)

/-- 41_session.md section 3 (R75): two sessions with equal progress, given the same operand, give equal responses and
end with equal progress, and after `STEPW` with equal `PEND`, whatever else differs between the two states: the two may
be two sessions of one state, or of an earlier and a later state in any interleaving, as long as the table is the
same. -/
def Obligations.EqualSessionsStepAlike : Prop :=
  ∀ (p q : SessionId) (s u : State), Ready p s → Ready q u → s.prog p = u.prog q →
    (∀ k : Index, u.mask k = s.mask k) → u.block.nlen = s.block.nlen → u.block.ssm = s.block.ssm →
    u.block.bsm = s.block.bsm →
    (∀ b : Byte, ∃ t v r, exec (.stepb p b) s = .next t ∧ exec (.stepb q b) u = .next v ∧ t.prog p = v.prog q ∧
      t.responses = s.responses ++ [r] ∧ v.responses = u.responses ++ [r]) ∧
    (∀ w : Word, ∃ t v r, exec (.stepw p w) s = .next t ∧ exec (.stepw q w) u = .next v ∧ t.prog p = v.prog q ∧
      t.pend p = v.pend q ∧ t.responses = s.responses ++ [r] ∧ v.responses = u.responses ++ [r])

/-! ### HASPEND and NEXTOFF -/

/-- R89: `HASPEND s` returns whether anything is pending and writes nothing. -/
def Obligations.HaspendTellsWhetherDraining : Prop :=
  ∀ sid : SessionId, encode (.haspend sid) = [sid ++ (0x5 : BitVec 4), 0x00] ∧ OnlyCommonStatuses (.haspend sid) ∧
    ∀ s : State, Ready sid s → exec (.haspend sid) s =
      .next ⟨s.block, s.cmdPort, s.responses ++ [⟨.ok, if s.pend sid ≠ 0 then 1 else 0⟩]⟩

/-- R92: with nothing pending `NEXTOFF s` answers `PRECONDITION 0`; with something pending it returns one more than the
number of the highest set bit, clears that bit alone, and leaves everything else; the offset is at most 8 where `PEND` is
at most `0xFF`. Its statuses are `PRECONDITION` and the common ones. -/
def Obligations.NextoffReportsAndClearsTheHighestBit : Prop :=
  ∀ sid : SessionId, encode (.nextoff sid) = [sid ++ (0x6 : BitVec 4), 0x00] ∧
    (∀ s : State, ∃ t r, exec (.nextoff sid) s = .next t ∧ t.responses = s.responses ++ [r] ∧
      (r.st = .ok ∨ r.st = .noTable ∨ r.st = .badSession ∨ r.st = .precondition)) ∧
    (∀ s : State, Ready sid s → s.pend sid = 0 → exec (.nextoff sid) s =
      .next ⟨s.block, s.cmdPort, s.responses ++ [⟨.precondition, 0⟩]⟩) ∧
    ∀ s : State, Ready sid s → s.pend sid ≠ 0 →
      ∃ t j, exec (.nextoff sid) s = .next t ∧ 1 ≤ j ∧ j ≤ 64 ∧ (s.pend sid ≤ 0xFF → j ≤ 8) ∧
        (s.pend sid).getLsbD (j - 1) = true ∧ (∀ p : Nat, j ≤ p → (s.pend sid).getLsbD p = false) ∧
        (∀ p : Nat, (t.pend sid).getLsbD p = ((s.pend sid).getLsbD p && decide (p ≠ j - 1))) ∧
        t.prog sid = s.prog sid ∧ SessionFrame sid s t ∧
        t.responses = s.responses ++ [⟨.ok, BitVec.ofNat 16 j⟩]

/-- R91: with nothing pending, `NEXTOFF s` answers `PRECONDITION 0` and writes nothing. -/
def Obligations.NextoffOnIdleSessionIsRefused : Prop :=
  ∀ (sid : SessionId) (s : State), Ready sid s → s.pend sid = 0 →
    exec (.nextoff sid) s = .next ⟨s.block, s.cmdPort, s.responses ++ [⟨.precondition, 0⟩]⟩

/-- 43_drain.md section 3 (R94, R96): draining a session takes as many `NEXTOFF`s as bits are pending, at most 8; they
return the pending sub-offsets, each once, latest first, and leave the session idle with its progress untouched. -/
def Obligations.DrainReportsEachCompletionOnceLatestFirst : Prop :=
  ∀ (sid : SessionId) (s : State), Ready sid s → s.pend sid ≤ 0xFF →
    ∃ (js : List Nat) (t : State), js.Pairwise (· > ·) ∧ js.length ≤ 8 ∧
      (∀ j : Nat, j ∈ js ↔ 1 ≤ j ∧ (s.pend sid).getLsbD (j - 1) = true) ∧
      execAll (List.replicate js.length (.nextoff sid)) s = .next t ∧
      t.responses = s.responses ++ js.map (fun j => ⟨.ok, BitVec.ofNat 16 j⟩) ∧
      t.pend sid = 0 ∧ t.prog sid = s.prog sid ∧ SessionFrame sid s t

/-- R93: the idle and draining states of a session with a valid table, and every transition between them. -/
def Obligations.SessionStateMachineOfRule93 : Prop :=
  ∀ (sid : SessionId) (s : State), BlockInv s.block → Ready sid s →
    (s.draining sid = true ↔ s.pend sid ≠ 0) ∧ (s.idle sid = true ↔ s.pend sid = 0) ∧
    (∀ b : Byte, ∃ t, exec (.stepb sid b) s = .next t ∧ t.draining sid = s.draining sid) ∧
    (∀ w : Word, ∃ t, exec (.stepw sid w) s = .next t ∧
      ((t.responses = s.responses ++ [⟨.ok, 1⟩] ∧ t.idle sid = true) ∨
       (t.responses = s.responses ++ [⟨.ok, 0⟩] ∧ t.draining sid = true))) ∧
    (∀ p q : Nat, p ≠ q → (s.pend sid).getLsbD p = true → (s.pend sid).getLsbD q = true →
      ∃ t, exec (.nextoff sid) s = .next t ∧ t.draining sid = true) ∧
    (∀ p : Nat, (∀ q : Nat, (s.pend sid).getLsbD q = true ↔ q = p) →
      ∃ t, exec (.nextoff sid) s = .next t ∧ t.idle sid = true) ∧
    (s.idle sid = true → ∃ t, exec (.nextoff sid) s = .next t ∧ t.idle sid = true ∧
      t.responses = s.responses ++ [⟨.precondition, 0⟩]) ∧
    (∃ t, exec (.haspend sid) s = .next t ∧ t.pend sid = s.pend sid) ∧
    (∃ t, exec (.getlen sid) s = .next t ∧ t.pend sid = s.pend sid) ∧
    (∃ t, exec (.reset sid) s = .next t ∧ t.idle sid = true) ∧
    (∀ needle : List Byte, 1 ≤ needle.length → needle.length ≤ 57 →
      ∃ t, exec (.compile needle) s = .next t ∧ t.idle sid = true)

/-! ### The block is the naive matcher -/

/-- 40_compile.md and 42_step.md section 2 (R66, R80): a successful `COMPILE` makes the block track the naive matcher of
its needle, every session at the start of an empty stream. -/
def Obligations.CompileStartsTrackingTheNaiveMatcher : Prop :=
  ∀ (needle : List Byte) (s : State), s.block.mt.wf → 1 ≤ needle.length → needle.length ≤ 57 →
    ∃ t, exec (.compile needle) s = .next t ∧ Tracks ⟨needle, fun _ => ⟨[], []⟩⟩ t.block

/-- 10_state.md section 1, 42_step.md section 2, 43_drain.md section 3 (R14, R80, R83, R94): from every state whose
block tracks the naive matcher, every answerable command gives the naive matcher's response and leaves a block that
tracks it: a completion is reported at a byte exactly when the bytes consumed so far end with the needle. -/
def Obligations.EveryCommandTracksTheNaiveMatcher : Prop :=
  ∀ (n : Naive) (i : Instr) (s : State), s.block.mt.wf → Tracks n s.block → answerable i →
    ∃ t, exec i s = .next t ∧ t.block.mt.wf ∧ t.responses = s.responses ++ [(n.run i).1] ∧ Tracks (n.run i).2 t.block

/-- The same for whole runs: after a `COMPILE`, any list of answerable commands gets the responses of the naive
matcher. -/
def Obligations.RunsAnswerAsTheNaiveMatcher : Prop :=
  ∀ (needle : List Byte) (is : List Instr) (s : State), s.block.mt.wf → 1 ≤ needle.length → needle.length ≤ 57 →
    (∀ i ∈ is, answerable i) →
    ∃ t, execAll (.compile needle :: is) s = .next t ∧
      t.responses = s.responses ++ ⟨.ok, 0⟩ :: Naive.answers ⟨needle, fun _ => ⟨[], []⟩⟩ is
end

