-- ==== Sys2Proof/Laws/Memory.lean ====
section
/-! SUPPORT. The laws of the mask table: a read after a write, the canonical form kept by every operation, and that
canonical tables which read alike are equal. -/

namespace Sys2Proof.Machine

@[simp] theorem Memory.read_nil (i : Nat) : Memory.read [] i = unlistedMask := rfl

theorem Memory.read_cons_eq (i : Nat) (v : Word) (m : Memory) : Memory.read ((i, v) :: m) i = v := by
  simp [Memory.read]

theorem Memory.read_cons_ne {i j : Nat} (v : Word) (m : Memory) (h : i ≠ j) :
    Memory.read ((j, v) :: m) i = Memory.read m i := by
  simp [Memory.read, h]

/-- An index below every listed one reads as unlisted. -/
theorem Memory.read_below : ∀ {m : Memory} {i : Nat}, (∀ c ∈ m, i < c.1) → Memory.read m i = unlistedMask
  | [], _, _ => rfl
  | (j, v) :: m, i, h => by
    have hj : i < j := h (j, v) (by simp)
    rw [Memory.read_cons_ne v m (by omega)]
    exact Memory.read_below fun c hc => h c (by simp [hc])

/-- The canonical form of a list's tail. -/
theorem Memory.wf_tail {c : Nat × Word} {m : Memory} (h : Memory.wf (c :: m)) : Memory.wf m :=
  ⟨(List.pairwise_cons.mp h.1).2, fun d hd => h.2 d (by simp [hd])⟩

theorem Memory.wf_head_lt {c : Nat × Word} {m : Memory} (h : Memory.wf (c :: m)) : ∀ d ∈ m, c.1 < d.1 :=
  (List.pairwise_cons.mp h.1).1

/-- An entry put in front of higher ones. -/
theorem Memory.read_consEntry {m : Memory} {i : Nat} (v : Word) (hb : ∀ c ∈ m, i < c.1) (k : Nat) :
    Memory.read (Memory.cons i v m) k = if k = i then v else Memory.read m k := by
  unfold Memory.cons
  by_cases hv : v = unlistedMask
  · by_cases hk : k = i
    · subst hk; simp [hv, Memory.read_below hb]
    · simp [hv, hk]
  · by_cases hk : k = i
    · subst hk; simp [hv, Memory.read]
    · simp [hv, hk, Memory.read]

theorem Memory.wf_consEntry {m : Memory} {i : Nat} (v : Word) (h : Memory.wf m) (hb : ∀ c ∈ m, i < c.1)
    (hi : i < Config.nMask) : Memory.wf (Memory.cons i v m) := by
  unfold Memory.cons
  by_cases hv : v = unlistedMask
  · simpa [hv] using h
  · simp only [hv, if_false]
    refine ⟨List.pairwise_cons.mpr ⟨hb, h.1⟩, fun c hc => ?_⟩
    rcases List.mem_cons.mp hc with rfl | hc
    · exact ⟨hi, hv⟩
    · exact h.2 c hc

/-- Where the entries of a written table come from. -/
theorem Memory.mem_write : ∀ {m : Memory} {i : Nat} {v : Word} {c : Nat × Word},
    c ∈ Memory.write m i v → c = (i, v) ∨ c ∈ m
  | [], i, v, c, h => by
    unfold Memory.write Memory.cons at h
    split at h <;> simp_all
  | (j, u) :: m, i, v, c, h => by
    unfold Memory.write at h
    split at h
    · unfold Memory.cons at h
      split at h <;> simp_all
    · split at h
      · unfold Memory.cons at h
        split at h <;> simp_all
        rcases h with h | h <;> simp [h]
      · rcases List.mem_cons.mp h with h | h
        · simp [h]
        · rcases Memory.mem_write h with h | h <;> simp [h]

/-- What one write does to every read. -/
theorem Memory.read_write : ∀ {m : Memory}, Memory.wf m → ∀ (i : Nat) (v : Word) (k : Nat),
    Memory.read (Memory.write m i v) k = if k = i then v else Memory.read m k
  | [], _, i, v, k => Memory.read_consEntry v (by simp) k
  | (j, u) :: m, h, i, v, k => by
    have ht := Memory.wf_tail h
    have hlt := Memory.wf_head_lt h
    unfold Memory.write
    split
    · rename_i hij
      refine Memory.read_consEntry v (fun c hc => ?_) k
      rcases List.mem_cons.mp hc with rfl | hc
      · exact hij
      · exact Nat.lt_trans hij (hlt c hc)
    · split
      · rename_i _ hij
        subst hij
        rw [Memory.read_consEntry v hlt k]
        by_cases hk : k = i
        · simp [hk]
        · simp [hk, Memory.read_cons_ne]
      · rename_i h1 h2
        by_cases hk : k = j
        · subst hk
          rw [Memory.read_cons_eq, Memory.read_cons_eq, if_neg (by omega)]
        · rw [Memory.read_cons_ne _ _ hk, Memory.read_cons_ne _ _ hk, Memory.read_write ht]

theorem Memory.read_write_same {m : Memory} (h : Memory.wf m) (i : Nat) (v : Word) :
    Memory.read (Memory.write m i v) i = v := by simp [Memory.read_write h]

theorem Memory.read_write_other {m : Memory} (h : Memory.wf m) {i k : Nat} (v : Word) (hk : k ≠ i) :
    Memory.read (Memory.write m i v) k = Memory.read m k := by simp [Memory.read_write h, hk]

/-- A write inside the address map keeps the canonical form. -/
theorem Memory.wf_write : ∀ {m : Memory}, Memory.wf m → ∀ {i : Nat} (v : Word), i < Config.nMask →
    Memory.wf (Memory.write m i v)
  | [], h, _, v, hi => Memory.wf_consEntry v h (by simp) hi
  | (j, u) :: m, h, i, v, hi => by
    have ht := Memory.wf_tail h
    have hlt := Memory.wf_head_lt h
    unfold Memory.write
    split
    · rename_i hij
      refine Memory.wf_consEntry v h (fun c hc => ?_) hi
      rcases List.mem_cons.mp hc with rfl | hc
      · exact hij
      · exact Nat.lt_trans hij (hlt c hc)
    · split
      · rename_i _ hij
        subst hij
        exact Memory.wf_consEntry v ht hlt hi
      · rename_i h1 h2
        have hw := Memory.wf_write ht v hi
        refine ⟨List.pairwise_cons.mpr ⟨fun c hc => ?_, hw.1⟩, fun c hc => ?_⟩
        · rcases Memory.mem_write hc with rfl | hc
          · show j < i
            omega
          · exact hlt c hc
        · rcases List.mem_cons.mp hc with rfl | hc
          · exact h.2 _ (by simp)
          · exact hw.2 c hc

/-- The table nothing has been written to is canonical. -/
theorem Memory.wf_nil : Memory.wf [] := by decide

/-- Canonical tables that read alike are equal: equal contents are equal data. -/
theorem Memory.eq_of_read : ∀ {m n : Memory}, Memory.wf m → Memory.wf n →
    (∀ i, Memory.read m i = Memory.read n i) → m = n
  | [], [], _, _, _ => rfl
  | [], (j, v) :: n, _, hn, h => by
    have := h j
    rw [Memory.read_cons_eq] at this
    exact absurd this.symm (hn.2 (j, v) (by simp)).2
  | (i, u) :: m, [], hm, _, h => by
    have := h i
    rw [Memory.read_cons_eq] at this
    exact absurd this (hm.2 (i, u) (by simp)).2
  | (i, u) :: m, (j, v) :: n, hm, hn, h => by
    have hu := (hm.2 (i, u) (by simp)).2
    have hv := (hn.2 (j, v) (by simp)).2
    have below : ∀ {a b : Nat} {w : Word} {l : Memory}, Memory.wf ((b, w) :: l) → a < b →
        Memory.read ((b, w) :: l) a = unlistedMask := by
      intro a b w l hl hab
      refine Memory.read_below fun c hc => ?_
      rcases List.mem_cons.mp hc with rfl | hc
      · exact hab
      · exact Nat.lt_trans hab (Memory.wf_head_lt hl c hc)
    have hij : i = j := by
      rcases Nat.lt_trichotomy i j with hlt | heq | hgt
      · have := h i
        rw [Memory.read_cons_eq, below hn hlt] at this
        exact absurd this hu
      · exact heq
      · have := h j
        rw [Memory.read_cons_eq, below hm hgt] at this
        exact absurd this.symm hv
    subst hij
    have huv : u = v := by simpa [Memory.read_cons_eq] using h i
    subst huv
    congr 1
    refine Memory.eq_of_read (Memory.wf_tail hm) (Memory.wf_tail hn) fun k => ?_
    by_cases hk : k = i
    · subst hk
      rw [Memory.read_below (Memory.wf_head_lt hm), Memory.read_below (Memory.wf_head_lt hn)]
    · simpa [Memory.read_cons_ne _ _ hk] using h k

/-! ### The compiler's passes over the table (R64) -/

/-- The first loop for the entries of a list of indexes. -/
theorem Memory.foldr_write {m : Memory} (h : Memory.wf m) (v : Word) : ∀ l : List Nat, (∀ i ∈ l, i < Config.nMask) →
    Memory.wf (l.foldr (fun i t => Memory.write t i v) m) ∧
    ∀ k, Memory.read (l.foldr (fun i t => Memory.write t i v) m) k = if k ∈ l then v else Memory.read m k
  | [], _ => ⟨h, by simp⟩
  | i :: l, hl => by
    obtain ⟨hw, hr⟩ := Memory.foldr_write h v l fun j hj => hl j (by simp [hj])
    refine ⟨Memory.wf_write hw v (hl i (by simp)), fun k => ?_⟩
    rw [List.foldr_cons, Memory.read_write hw, hr]
    by_cases hk : k = i <;> simp [hk]

theorem wf_initMasks {mt : Memory} (h : mt.wf) (m : Nat) : (initMasks m mt).wf :=
  (Memory.foldr_write h _ _ fun i hi => by
    have := List.mem_range.mp hi
    simp only [Config.nMask]; omega).1

/-- Every byte entry reads `ONES << m` after the first loop. -/
theorem read_initMasks {mt : Memory} (h : mt.wf) (m k : Nat) :
    Memory.read (initMasks m mt) k = if k < 256 then permissive m else Memory.read mt k := by
  have := (Memory.foldr_write h (permissive m) (List.range 256) fun i hi => by
    have := List.mem_range.mp hi
    simp only [Config.nMask]; omega).2 k
  simpa [initMasks] using this

theorem wf_orNeedle : ∀ (bs : List Byte) (p : Nat) {mt : Memory}, mt.wf → (orNeedle p bs mt).wf
  | [], _, _, h => h
  | b :: bs, p, mt, h => by
    have hb := b.isLt
    exact wf_orNeedle bs (p + 1) (Memory.wf_write h _ (by simp only [Config.nMask]; omega))

/-- The second loop sets bit `p + k` in exactly the entry of the `k`-th byte, and clears nothing (R66). -/
theorem read_orNeedle : ∀ (bs : List Byte) (p : Nat) {mt : Memory}, mt.wf → ∀ (v : Byte) (q : Nat), q < 64 →
    (Memory.read (orNeedle p bs mt) v.toNat).getLsbD q =
      ((Memory.read mt v.toNat).getLsbD q || decide (p ≤ q ∧ bs[q - p]? = some v))
  | [], p, mt, _, v, q, _ => by simp [orNeedle]
  | b :: bs, p, mt, h, v, q, hq => by
    have hb := b.isLt
    have hw : Memory.wf (Memory.write mt b.toNat (Memory.read mt b.toNat ||| ((1 : Word) <<< p))) :=
      Memory.wf_write h _ (by simp only [Config.nMask]; omega)
    rw [orNeedle, read_orNeedle bs (p + 1) hw v q hq, Memory.read_write h]
    have hone : ((1 : Word) <<< p).getLsbD q = decide (q = p) := by
      simp only [BitVec.getLsbD_shiftLeft]
      by_cases h1 : q < p <;> by_cases h2 : q = p <;> simp [h1, h2, hq] <;> omega
    by_cases hv : v.toNat = b.toNat
    · have hvb : v = b := BitVec.eq_of_toNat_eq hv
      subst hvb
      rw [if_pos rfl, BitVec.getLsbD_or, hone]
      rcases Nat.lt_trichotomy q p with hlt | rfl | hgt
      · have h1 : ¬ p ≤ q := by omega
        have h2 : ¬ p + 1 ≤ q := by omega
        have h3 : q ≠ p := by omega
        simp [h1, h2, h3]
      · simp
      · have h1 : q ≠ p := by omega
        have h2 : q - p = q - (p + 1) + 1 := by omega
        have h3 : p + 1 ≤ q := by omega
        have h4 : p ≤ q := by omega
        rw [h2]
        simp [h1, h3, h4]
    · have hvb : b ≠ v := fun e => hv (by rw [e])
      rw [if_neg hv]
      rcases Nat.lt_trichotomy q p with hlt | rfl | hgt
      · have h1 : ¬ p ≤ q := by omega
        have h2 : ¬ p + 1 ≤ q := by omega
        simp [h1, h2]
      · simp [hvb]
      · have h2 : q - p = q - (p + 1) + 1 := by omega
        have h3 : p + 1 ≤ q := by omega
        have h4 : p ≤ q := by omega
        rw [h2]
        simp [h3, h4]

/-- The second loop touches byte entries only. -/
theorem read_orNeedle_above : ∀ (bs : List Byte) (p : Nat) {mt : Memory}, mt.wf → ∀ k, 256 ≤ k →
    Memory.read (orNeedle p bs mt) k = Memory.read mt k
  | [], _, _, _, _, _ => rfl
  | b :: bs, p, mt, h, k, hk => by
    have hb := b.isLt
    rw [orNeedle, read_orNeedle_above bs (p + 1) (Memory.wf_write h _ (by simp only [Config.nMask]; omega)) k hk,
      Memory.read_write_other h _ (by omega)]

/-- The compiler keeps the canonical form. -/
theorem wf_compiledMasks {mt : Memory} (h : mt.wf) (needle : List Byte) : (compiledMasks needle mt).wf :=
  Memory.wf_write (wf_orNeedle _ _ (wf_initMasks h _)) _ (by decide)

/-- An index outside the address map is never listed. -/
theorem Memory.read_outside {m : Memory} (h : m.wf) {k : Nat} (hk : Config.nMask ≤ k) :
    Memory.read m k = unlistedMask := by
  induction m with
  | nil => rfl
  | cons c m ih =>
    obtain ⟨j, v⟩ := c
    have hj := (h.2 (j, v) (by simp)).1
    rw [Memory.read_cons_ne _ _ (by simp only at hj; omega)]
    exact ih (Memory.wf_tail h)

end Sys2Proof.Machine
end

