-- ==== Sys2Proof/Laws/State.lean ====
section
/-! SUPPORT. One lemma per field per update of State and Block, so that no later proof unfolds a record update. -/

namespace Sys2Proof.Machine

/-! ### Block updates -/

section Block
variable (b : Block) (sid : SessionId) (x : Session) (needle : List Byte)

@[simp] theorem Block.setSession_mt : (b.setSession sid x).mt = b.mt := rfl
@[simp] theorem Block.setSession_nlen : (b.setSession sid x).nlen = b.nlen := rfl
@[simp] theorem Block.setSession_ssm : (b.setSession sid x).ssm = b.ssm := rfl
@[simp] theorem Block.setSession_bsm : (b.setSession sid x).bsm = b.bsm := rfl
@[simp] theorem Block.setSession_tv : (b.setSession sid x).tv = b.tv := rfl
@[simp] theorem Block.setSession_mask (i : Index) : (b.setSession sid x).mask i = b.mask i := rfl

@[simp] theorem Block.zeroSessions_mt : b.zeroSessions.mt = b.mt := rfl
@[simp] theorem Block.zeroSessions_nlen : b.zeroSessions.nlen = b.nlen := rfl
@[simp] theorem Block.zeroSessions_ssm : b.zeroSessions.ssm = b.ssm := rfl
@[simp] theorem Block.zeroSessions_bsm : b.zeroSessions.bsm = b.bsm := rfl
@[simp] theorem Block.zeroSessions_tv : b.zeroSessions.tv = b.tv := rfl

@[simp] theorem Block.install_mt : (b.install needle).mt = compiledMasks needle b.mt := rfl
@[simp] theorem Block.install_nlen : (b.install needle).nlen = BitVec.ofNat 6 needle.length := rfl
@[simp] theorem Block.install_ssm : (b.install needle).ssm = (1 : Word) <<< (needle.length - 1) := rfl
@[simp] theorem Block.install_bsm : (b.install needle).bsm = (0xFF : Word) <<< (needle.length - 1) := rfl
@[simp] theorem Block.install_tv : (b.install needle).tv = true := rfl

end Block

/-! ### Reading sessions after a write (R16) -/

theorem Block.session_setSession_self (b : Block) (sid : SessionId) (x : Session) :
    (b.setSession sid x).session sid = x := by
  simp [Block.session, Block.setSession]

theorem Block.session_setSession_other (b : Block) {r sid : SessionId} (x : Session) (h : r ≠ sid) :
    (b.setSession sid x).session r = b.session r := by
  have hne : sid.toNat ≠ r.toNat := fun e => h (BitVec.eq_of_toNat_eq e.symm)
  simp [Block.session, Block.setSession, hne]

@[simp] theorem Block.session_setSession (b : Block) (sid r : SessionId) (x : Session) :
    (b.setSession sid x).session r = if r = sid then x else b.session r := by
  by_cases h : r = sid
  · subst h; simp [Block.session_setSession_self]
  · simp [Block.session_setSession_other b x h, h]

@[simp] theorem Block.session_zeroSessions (b : Block) (r : SessionId) : b.zeroSessions.session r = Session.zero := by
  simp [Block.session, Block.zeroSessions]

@[simp] theorem Block.session_install (b : Block) (needle : List Byte) (r : SessionId) :
    (b.install needle).session r = Session.zero := by
  simp [Block.install]

@[simp] theorem Block.session_powerOn (r : SessionId) : Block.powerOn.session r = Session.zero := by
  simp [Block.session, Block.powerOn]

/-- Two blocks whose registers all read alike are equal. -/
theorem Block.ext_sessions {a b : Block} (hmt : a.mt = b.mt) (hn : a.nlen = b.nlen) (hs : a.ssm = b.ssm)
    (hb : a.bsm = b.bsm) (htv : a.tv = b.tv) (h : ∀ sid : SessionId, a.session sid = b.session sid) : a = b := by
  have hv : a.sessions = b.sessions := by
    apply Vector.ext
    intro k hk
    have := h (BitVec.ofNat 4 k)
    simpa [Block.session, Nat.mod_eq_of_lt hk] using this
  cases a; cases b; simp_all

/-- Writing back what a context holds changes nothing. -/
@[simp] theorem Block.setSession_session (b : Block) (sid : SessionId) : b.setSession sid (b.session sid) = b := by
  refine Block.ext_sessions rfl rfl rfl rfl rfl fun r => ?_
  by_cases h : r = sid <;> simp [h]

/-! ### State updates -/

section State
variable (s : State) (sid : SessionId) (x : Session) (v : Word) (st : Status) (val : BitVec 16) (bs : List Byte)

@[simp] theorem State.setSession_block : (s.setSession sid x).block = s.block.setSession sid x := rfl
@[simp] theorem State.setSession_cmdPort : (s.setSession sid x).cmdPort = s.cmdPort := rfl
@[simp] theorem State.setSession_responses : (s.setSession sid x).responses = s.responses := rfl

@[simp] theorem State.setProg_block : (s.setProg sid v).block = s.block.setSession sid ⟨v, s.pend sid⟩ := rfl
@[simp] theorem State.setProg_cmdPort : (s.setProg sid v).cmdPort = s.cmdPort := rfl
@[simp] theorem State.setProg_responses : (s.setProg sid v).responses = s.responses := rfl

@[simp] theorem State.setPend_block : (s.setPend sid v).block = s.block.setSession sid ⟨s.prog sid, v⟩ := rfl
@[simp] theorem State.setPend_cmdPort : (s.setPend sid v).cmdPort = s.cmdPort := rfl
@[simp] theorem State.setPend_responses : (s.setPend sid v).responses = s.responses := rfl

@[simp] theorem respond_block : (respond st val s).block = s.block := rfl
@[simp] theorem respond_cmdPort : (respond st val s).cmdPort = s.cmdPort := rfl
@[simp] theorem respond_responses : (respond st val s).responses = s.responses ++ [⟨st, val⟩] := rfl

@[simp] theorem ret_block : (ret val s).block = s.block := rfl
@[simp] theorem ret_cmdPort : (ret val s).cmdPort = s.cmdPort := rfl
@[simp] theorem ret_responses : (ret val s).responses = s.responses ++ [⟨.ok, val⟩] := rfl

@[simp] theorem raise_block : (raise st val s).block = s.block := rfl
@[simp] theorem raise_cmdPort : (raise st val s).cmdPort = s.cmdPort := rfl
@[simp] theorem raise_responses : (raise st val s).responses = s.responses ++ [⟨st, val⟩] := rfl

@[simp] theorem consumeTo_block : (consumeTo bs s).block = s.block := rfl
@[simp] theorem consumeTo_cmdPort : (consumeTo bs s).cmdPort = bs := rfl
@[simp] theorem consumeTo_responses : (consumeTo bs s).responses = s.responses := rfl

@[simp] theorem present_block : (present bs s).block = s.block := rfl
@[simp] theorem present_cmdPort : (present bs s).cmdPort = s.cmdPort ++ bs := rfl
@[simp] theorem present_responses : (present bs s).responses = s.responses := rfl

@[simp] theorem illegalCommand_block : (illegalCommand s).block = s.block := rfl
@[simp] theorem illegalCommand_cmdPort : (illegalCommand s).cmdPort = s.cmdPort := rfl
@[simp] theorem illegalCommand_responses :
    (illegalCommand s).responses = s.responses ++ [⟨.illegalCommand, 0⟩] := rfl

@[simp] theorem placePacket_block (nbits w : Nat) : (placePacket nbits w s).block = s.block := rfl
@[simp] theorem placePacket_cmdPort (nbits w : Nat) :
    (placePacket nbits w s).cmdPort = tablePacket nbits w ++ s.cmdPort := rfl
@[simp] theorem placePacket_responses (nbits w : Nat) : (placePacket nbits w s).responses = s.responses := rfl

end State

/-- Two states are equal when their three fields are. -/
theorem State.ext_fields {s t : State} (hb : s.block = t.block) (hc : s.cmdPort = t.cmdPort)
    (hr : s.responses = t.responses) : s = t := by
  cases s; cases t; simp_all

end Sys2Proof.Machine
end

