-- ==== Sys2Proof/Laws/Ops.lean ====
section
/-! SUPPORT. For each shared operation, one lemma that says once everything it can do. -/

namespace Sys2Proof.Machine

/-! ### N_SESS (00_scope.md R6) -/

/-- `1 <= N_SESS <= 16`. -/
theorem nSess_bounds : 1 ≤ Config.nSess ∧ Config.nSess ≤ 16 := by
  unfold Config.nSess; omega

@[simp] theorem sessionPresent_eq_true {sid : SessionId} : sessionPresent sid = true ↔ sid.toNat < Config.nSess := by
  simp [sessionPresent]

@[simp] theorem sessionPresent_eq_false {sid : SessionId} : sessionPresent sid = false ↔ Config.nSess ≤ sid.toNat := by
  simp [sessionPresent]

/-! ### The common checks (60_exceptions.md R104) -/

/-- Everything `sessionCommand` can answer. -/
theorem sessionCommand_cases {sid : SessionId} {s t : State} {own : State → State}
    (h : sessionCommand sid s own = .next t) :
    (Config.nSess ≤ sid.toNat ∧ t = raise .badSession 0 s) ∨
    (sid.toNat < Config.nSess ∧ s.block.tv = false ∧ t = raise .noTable 0 s) ∨
    (sid.toNat < Config.nSess ∧ s.block.tv = true ∧ t = own s) := by
  unfold sessionCommand at h
  by_cases hp : sid.toNat < Config.nSess
  · have hp' : sessionPresent sid = true := sessionPresent_eq_true.mpr hp
    cases htv : s.block.tv
    · simp [hp', htv] at h; exact .inr (.inl ⟨hp, rfl, h.symm⟩)
    · simp [hp', htv] at h; exact .inr (.inr ⟨hp, rfl, h.symm⟩)
  · have hp' : sessionPresent sid = false := sessionPresent_eq_false.mpr (by omega)
    simp [hp'] at h
    exact .inl ⟨by omega, h.symm⟩

/-- A ready session's command runs its own rule. -/
theorem sessionCommand_ready {sid : SessionId} {s : State} (own : State → State)
    (hp : sid.toNat < Config.nSess) (htv : s.block.tv = true) : sessionCommand sid s own = .next (own s) := by
  have hp' : sessionPresent sid = true := sessionPresent_eq_true.mpr hp
  simp [sessionCommand, hp', htv]

/-- `BAD_SESSION` comes first (R102, R104). -/
theorem sessionCommand_bad {sid : SessionId} {s : State} (own : State → State) (hp : Config.nSess ≤ sid.toNat) :
    sessionCommand sid s own = .next (raise .badSession 0 s) := by
  have hp' : sessionPresent sid = false := sessionPresent_eq_false.mpr hp
  simp [sessionCommand, hp']

/-- `NO_TABLE` comes second (R101, R104). -/
theorem sessionCommand_noTable {sid : SessionId} {s : State} (own : State → State)
    (hp : sid.toNat < Config.nSess) (htv : s.block.tv = false) :
    sessionCommand sid s own = .next (raise .noTable 0 s) := by
  have hp' : sessionPresent sid = true := sessionPresent_eq_true.mpr hp
  simp [sessionCommand, hp', htv]

/-! ### Results and derived predicates (10_state.md R21, 30_encoding.md R58) -/

theorem draining_iff (s : State) (sid : SessionId) : s.draining sid = true ↔ s.pend sid ≠ 0 := by simp [State.draining]

theorem idle_iff (s : State) (sid : SessionId) : s.idle sid = true ↔ s.pend sid = 0 := by simp [State.idle]

/-- The result of a step (R77, R84). -/
theorem boolVal_noCompletion (t m : Word) : boolVal (noCompletion t m) = if t &&& m = 0 then 1 else 0 := by
  by_cases h : t &&& m = 0
  · rw [if_pos h, noCompletion, h]; rfl
  · rw [if_neg h, noCompletion, beq_eq_false_iff_ne.mpr h]; rfl

/-- The result of `HASPEND` (R89). -/
theorem boolVal_draining (s : State) (sid : SessionId) :
    boolVal (s.draining sid) = if s.pend sid ≠ 0 then 1 else 0 := by
  by_cases h : s.pend sid = 0
  · rw [if_neg (not_not.mpr h), State.draining, h]; rfl
  · rw [if_pos h, State.draining, bne_iff_ne.mpr h]; rfl

/-! ### The leading-zero count (00_scope.md R9) -/

theorem leadingZeros_le (a : Word) : ∀ n, leadingZeros a n ≤ n
  | 0 => Nat.le_refl 0
  | n + 1 => by
    unfold leadingZeros
    split
    · omega
    · have := leadingZeros_le a n; omega

/-- The bits the count has passed are zero; the bit below them, if any is left, is one. -/
theorem leadingZeros_spec (a : Word) : ∀ n,
    (∀ p, n - leadingZeros a n ≤ p → p < n → a.getLsbD p = false) ∧
    (leadingZeros a n < n → a.getLsbD (n - leadingZeros a n - 1) = true)
  | 0 => ⟨fun p _ h => absurd h (Nat.not_lt_zero p), fun h => absurd h (Nat.lt_irrefl 0)⟩
  | n + 1 => by
    obtain ⟨hz, ho⟩ := leadingZeros_spec a n
    have hle := leadingZeros_le a n
    unfold leadingZeros
    split
    · rename_i hb
      exact ⟨fun p h1 h2 => absurd h2 (by omega), fun _ => by simpa using hb⟩
    · rename_i hb
      refine ⟨fun p h1 h2 => ?_, fun h => ?_⟩
      · by_cases hp : p = n
        · subst hp; simpa using hb
        · exact hz p (by omega) (by omega)
      · have := ho (by omega)
        rwa [show n + 1 - (leadingZeros a n + 1) - 1 = n - leadingZeros a n - 1 by omega]

/-- `64 - clz64(a)` is one more than the number of the highest one bit (R9, R92). -/
theorem nextOffset_spec {a : Word} (h : a ≠ 0) :
    1 ≤ nextOffset a ∧ nextOffset a ≤ 64 ∧ a.getLsbD (nextOffset a - 1) = true ∧
    ∀ p, nextOffset a ≤ p → p < 64 → a.getLsbD p = false := by
  obtain ⟨hz, ho⟩ := leadingZeros_spec a 64
  have hle := leadingZeros_le a 64
  have hlt : leadingZeros a 64 < 64 := by
    by_contra hge
    apply h
    apply BitVec.eq_of_getLsbD_eq
    intro p hp
    rw [hz p (by omega) hp]; simp
  unfold nextOffset clz64
  exact ⟨by omega, by omega, ho hlt, hz⟩

/-- What clearing an offset does to each bit (R92). -/
theorem getLsbD_clearOffset (a : Word) {j : Nat} (hj : 1 ≤ j) (p : Nat) :
    (clearOffset a j).getLsbD p = (a.getLsbD p && decide (p ≠ j - 1)) := by
  by_cases hp : p < 64
  · unfold clearOffset
    rw [BitVec.getLsbD_and, BitVec.getLsbD_not, BitVec.getLsbD_shiftLeft]
    by_cases h1 : p = j - 1
    · subst h1; simp
    · by_cases h2 : p < j - 1
      · simp [hp, h1, h2]
      · have h3 : ¬ p - (j - 1) = 0 := by omega
        simp [hp, h1, h2, h3]
  · simp [BitVec.getLsbD_of_ge _ _ (Nat.le_of_not_lt hp)]

/-! ### The update rule (42_step.md R76) -/

/-- `t[0] = mask[0]`; `t[p] = progress[p-1] & mask[p]` (R76). -/
theorem getLsbD_advance (p mask : Word) (q : Nat) (hq : q < 64) :
    (advance p mask).getLsbD q = (((q = 0 : Bool) || p.getLsbD (q - 1)) && mask.getLsbD q) := by
  unfold advance
  rw [BitVec.getLsbD_and, BitVec.getLsbD_or, BitVec.getLsbD_shiftLeft]
  cases q with
  | zero => simp
  | succ q => simp [hq]

/-! ### Unpacking (42_step.md R82) -/

/-- `rev8(W)[i] = W[7-i]` (R82). -/
theorem getLsbD_rev8 (w : BitVec 8) {i : Nat} (hi : i < 8) : (rev8 w).getLsbD i = w.getLsbD (7 - i) := by
  simp only [rev8, BitVec.getLsbD_reverse, BitVec.getMsbD_eq_getLsbD]
  simp [hi]

/-- Bit `j-1` of `unpack(c)` is bit `m+7-j` of `c`, and bits 8..63 are 0 (R82). -/
theorem getLsbD_unpack (nlen : BitVec 6) (c : Word) (k : Nat) :
    (unpack nlen c).getLsbD k = (decide (k < 8) && c.getLsbD (nlen.toNat - 1 + (7 - k))) := by
  unfold unpack
  rw [BitVec.getLsbD_setWidth]
  by_cases hk : k < 8
  · rw [getLsbD_rev8 _ hk, BitVec.getLsbD_setWidth, BitVec.getLsbD_ushiftRight]
    have h1 : k < 64 := by omega
    have h2 : 7 - k < 8 := by omega
    simp [hk, h1, h2]
  · rw [BitVec.getLsbD_of_ge _ _ (Nat.le_of_not_lt hk)]
    simp [hk]

end Sys2Proof.Machine
end

