-- ==== Sys2Proof/Laws/Compile.lean ====
section
/-! SUPPORT. What installing a needle's table leaves in every entry (40_compile.md R64). -/

namespace Sys2Proof.Machine

@[simp] theorem byteIndex_val (v : Byte) : (byteIndex v).val = v.toNat := rfl

theorem getLsbD_permissive (m : Nat) {p : Nat} (hp : p < 64) : (permissive m).getLsbD p = decide (m ≤ p) := by
  simp only [permissive, BitVec.getLsbD_shiftLeft, BitVec.getLsbD_allOnes]
  by_cases h : m ≤ p
  · simp [h, hp, show p - m < 64 by omega]
  · simp [h, hp, show p < m by omega]

/-- Bit `p` of entry `v` after the installation of a needle. -/
theorem Block.getLsbD_mask_install {b : Block} (h : b.mt.wf) (needle : List Byte) (v : Byte) {p : Nat} (hp : p < 64) :
    ((b.install needle).mask (byteIndex v)).getLsbD p =
      (decide (needle.length ≤ p) || decide (needle[p]? = some v)) := by
  have hv := v.isLt
  have hw := wf_initMasks h needle.length
  show (Memory.read (compiledMasks needle b.mt) v.toNat).getLsbD p = _
  rw [compiledMasks, Memory.read_write_other (wf_orNeedle _ _ hw) _ (by simp only [sentIndex]; omega),
    read_orNeedle needle 0 hw v p hp, read_initMasks h, if_pos (by omega), getLsbD_permissive _ hp]
  simp

/-- The sentinel entry after the installation of a needle. -/
theorem Block.mask_install_sentinel {b : Block} (h : b.mt.wf) (needle : List Byte) :
    (b.install needle).mask sentIndex = ones :=
  Memory.read_write_same (wf_orNeedle _ _ (wf_initMasks h _)) _ _

/-- The length field after the installation of a needle that fits. -/
theorem Block.nlen_install_toNat (b : Block) {needle : List Byte} (h : needle.length ≤ 57) :
    (b.install needle).nlen.toNat = needle.length := by
  rw [Block.install_nlen, BitVec.toNat_ofNat, Nat.mod_eq_of_lt (by omega)]

/-- What is true of a legal length. -/
@[simp] theorem legalLength_iff {m : Nat} : legalLength m = true ↔ 1 ≤ m ∧ m ≤ 57 := by
  unfold legalLength Config.minNeedle Config.maxNeedle; exact decide_eq_true_iff

end Sys2Proof.Machine
end

