-- ==== Sys2Proof/Laws/Decode.lean ====
section
/-! SUPPORT. The small lemmas of packets: header fields, the bytes of a word, and what decoding a whole packet does. -/

namespace Sys2Proof

/-! ### Header fields (30_encoding.md R46) -/

/-- Bits 7:0 of the header are packet byte 0, bits 15:8 byte 1 (R46). -/
theorem getLsbD_header (b0 b1 : Byte) (i : Nat) :
    (header b0 b1).getLsbD i = if i < 8 then b0.getLsbD i else b1.getLsbD (i - 8) :=
  BitVec.getLsbD_append

/-- Bits 3:0 of packet byte 0 are `OP`, bits 7:4 `SID` (R46). -/
theorem getLsbD_headerByte (sid : SessionId) (op : BitVec 4) (i : Nat) :
    BitVec.getLsbD (w := 8) (sid ++ op) i = if i < 4 then op.getLsbD i else sid.getLsbD (i - 4) :=
  BitVec.getLsbD_append

theorem getLsbD_headerOp (h : BitVec 16) {i : Nat} (hi : i < 4) : (headerOp h).getLsbD i = h.getLsbD i := by
  rw [headerOp, BitVec.getLsbD_extractLsb']; simp [hi]

theorem getLsbD_headerSid (h : BitVec 16) {i : Nat} (hi : i < 4) : (headerSid h).getLsbD i = h.getLsbD (4 + i) := by
  rw [headerSid, BitVec.getLsbD_extractLsb']; simp [hi]

theorem getLsbD_headerLen (h : BitVec 16) {i : Nat} (hi : i < 8) : (headerLen h).getLsbD i = h.getLsbD (8 + i) := by
  rw [headerLen, BitVec.getLsbD_extractLsb']; simp [hi]

@[simp] theorem headerOp_header (sid : SessionId) (op : BitVec 4) (b1 : Byte) :
    headerOp (header (sid ++ op) b1) = op := by
  apply BitVec.eq_of_getLsbD_eq
  intro i hi
  rw [getLsbD_headerOp _ hi, getLsbD_header, if_pos (by omega), getLsbD_headerByte, if_pos hi]

@[simp] theorem headerSid_header (sid : SessionId) (op : BitVec 4) (b1 : Byte) :
    headerSid (header (sid ++ op) b1) = sid := by
  apply BitVec.eq_of_getLsbD_eq
  intro i hi
  rw [getLsbD_headerSid _ hi, getLsbD_header, if_pos (by omega), getLsbD_headerByte, if_neg (by omega),
    show 4 + i - 4 = i by omega]

@[simp] theorem headerLen_header (b0 b1 : Byte) : headerLen (header b0 b1) = b1 := by
  apply BitVec.eq_of_getLsbD_eq
  intro i hi
  rw [getLsbD_headerLen _ hi, getLsbD_header, if_neg (by omega), show 8 + i - 8 = i by omega]

/-- The first header byte is its two fields (R46). -/
theorem headerByte_split (b0 b1 : Byte) : headerSid (header b0 b1) ++ headerOp (header b0 b1) = b0 := by
  apply BitVec.eq_of_getLsbD_eq
  intro i hi
  refine (getLsbD_headerByte _ _ i).trans ?_
  by_cases h : i < 4
  · rw [if_pos h, getLsbD_headerOp _ h, getLsbD_header, if_pos (by omega)]
  · rw [if_neg h, getLsbD_headerSid _ (by omega), getLsbD_header, if_pos (by omega), show 4 + (i - 4) = i by omega]

/-! ### The bytes of a word (20_memory.md R33) -/

@[simp] theorem wordBytes_length (w : Word) : (wordBytes w).length = 8 := by simp [wordBytes]

theorem getLsbD_wordByte (w : Word) (i p : Nat) (hp : p < 8) : (wordByte w i).getLsbD p = w.getLsbD (8 * i + p) := by
  simp [wordByte, hp]

/-- The word's bytes written out, first in the stream first. -/
theorem wordBytes_eq (w : Word) : wordBytes w =
    [wordByte w 0, wordByte w 1, wordByte w 2, wordByte w 3, wordByte w 4, wordByte w 5, wordByte w 6, wordByte w 7] :=
  rfl

/-- Bit `8k + p` of the assembled word is bit `p` of the `k`-th byte (R50). -/
theorem getLsbD_wordOfBytes : ∀ (bs : List Byte) (q : Nat), q < 64 →
    (wordOfBytes bs).getLsbD q = (bs.getD (q / 8) 0).getLsbD (q % 8)
  | [], q, _ => by simp [wordOfBytes]
  | b :: bs, q, hq => by
    have ih := getLsbD_wordOfBytes bs (q - 8) (by omega)
    simp only [wordOfBytes, List.foldr_cons] at ih ⊢
    rw [BitVec.getLsbD_or, BitVec.getLsbD_shiftLeft, BitVec.getLsbD_setWidth, ih]
    by_cases h : q < 8
    · have h1 : q / 8 = 0 := by omega
      have h2 : q % 8 = q := by omega
      simp [h, hq, h1, h2]
    · have h1 : q / 8 = (q - 8) / 8 + 1 := by omega
      have h2 : (q - 8) % 8 = q % 8 := by omega
      have h3 : b.getLsbD q = false := BitVec.getLsbD_of_ge _ _ (by omega)
      simp [h, hq, h1, h2, h3]

/-- Assembling a word's own bytes gives the word (R50). -/
theorem wordOfBytes_wordBytes (w : Word) : wordOfBytes (wordBytes w) = w := by
  apply BitVec.eq_of_getLsbD_eq
  intro q hq
  rw [getLsbD_wordOfBytes _ _ hq]
  have h8 : q / 8 < 8 := by omega
  have hget : (wordBytes w).getD (q / 8) 0 = wordByte w (q / 8) := by
    simp [wordBytes, List.getD_eq_getElem?_getD, h8]
  rw [hget, getLsbD_wordByte _ _ _ (Nat.mod_lt _ (by omega)), Nat.div_add_mod]

/-- The bytes of the word assembled from eight bytes are those bytes (R50). -/
theorem wordBytes_wordOfBytes {bs : List Byte} (h : bs.length = 8) : wordBytes (wordOfBytes bs) = bs := by
  apply List.ext_getElem
  · simp [h]
  · intro k hk _
    have hk8 : k < 8 := by simpa using hk
    simp only [wordBytes, List.getElem_map, List.getElem_range]
    apply BitVec.eq_of_getLsbD_eq
    intro p hp
    rw [getLsbD_wordByte _ _ _ hp, getLsbD_wordOfBytes _ _ (by omega)]
    have h1 : (8 * k + p) / 8 = k := by omega
    have h2 : (8 * k + p) % 8 = p := by omega
    rw [h1, h2]
    simp [List.getD_eq_getElem?_getD, show k < bs.length by omega]

/-! ### Decoding -/

/-- Decoding two header bytes and what follows (R59). -/
theorem decode_cons_cons (b0 b1 : Byte) (rest : List Byte) :
    decode (b0 :: b1 :: rest) =
      if rest.length < payloadLength (header b0 b1) then .incomplete
      else classify (header b0 b1) (rest.take (payloadLength (header b0 b1)))
        (rest.drop (payloadLength (header b0 b1))) := rfl

/-- Which row of R48 a header selects, and the command with its operands: everything `classify` can answer. -/
theorem classify_eq (h : BitVec 16) (payload rest : List Byte) :
    classify h payload rest =
      if h &&& 0x00FF = 0x0001 then .command (.compile payload) rest
      else if h &&& 0xFF0F = 0x0002 then .command (.reset (headerSid h)) rest
      else if h &&& 0xFF0F = 0x0003 then .command (.stepb (headerSid h) (payload.headD 0)) rest
      else if h &&& 0xFF0F = 0x0004 then .command (.stepw (headerSid h) (wordOfBytes payload)) rest
      else if h &&& 0xFF0F = 0x0005 then .command (.haspend (headerSid h)) rest
      else if h &&& 0xFF0F = 0x0006 then .command (.nextoff (headerSid h)) rest
      else if h &&& 0xFF0F = 0x0007 then .command (.getlen (headerSid h)) rest
      else .illegal (rejectReason h) rest := by
  by_cases h1 : h &&& 0x00FF = 0x0001
  · simp only [classify, opcodeTable, OpcodeRow.selects, List.find?, h1, decide_true, if_true]
  simp only [classify, opcodeTable, OpcodeRow.selects, List.find?, h1, decide_false, if_false]
  generalize h &&& 0xFF0F = k
  by_cases h2 : k = 0x0002
  · subst h2; rfl
  by_cases h3 : k = 0x0003
  · subst h3; rfl
  by_cases h4 : k = 0x0004
  · subst h4; rfl
  by_cases h5 : k = 0x0005
  · subst h5; rfl
  by_cases h6 : k = 0x0006
  · subst h6; rfl
  by_cases h7 : k = 0x0007
  · subst h7; rfl
  simp only [h2, h3, h4, h5, h6, h7, decide_false, if_false]

/-- Fewer than two bytes are no command yet (R59). -/
theorem decode_short {bs : List Byte} (h : bs.length < 2) : decode bs = .incomplete := by
  match bs, h with
  | [], _ => rfl
  | [_], _ => rfl

end Sys2Proof
end

