-- ==== Sys2Proof/Laws/Step.lean ====
section
/-! SUPPORT. What one step can do: the inversion of `step` over the decoder, and the shape of every meaning (one
response, the command port untouched). -/

namespace Sys2Proof.Machine

/-- Everything a step can do. -/
theorem step_cases {s t : State} (h : step s = .next t) :
    (∃ i rest, decode s.cmdPort = .command i rest ∧ exec i (consumeTo rest s) = .next t) ∨
    (∃ why rest, decode s.cmdPort = .illegal why rest ∧ t = illegalCommand (consumeTo rest s)) ∨
    (decode s.cmdPort = .incomplete ∧ t = s) := by
  unfold step at h
  split at h
  · rename_i i rest hd; exact .inl ⟨i, rest, hd, h⟩
  · rename_i why rest hd
    exact .inr (.inl ⟨why, rest, hd, by injection h with h; exact h.symm⟩)
  · rename_i hd
    exact .inr (.inr ⟨hd, by injection h with h; exact h.symm⟩)

/-- The own rule of each session command, as a function of a ready state. -/
def ownRule : Instr → State → State
  | .compile _, s => s
  | .reset sid, s => ret 0 (s.setSession sid Session.zero)
  | .stepb sid b, s =>
    let t := advance (s.prog sid) (s.byteMask b)
    ret (boolVal (noCompletion t s.block.ssm)) (s.setProg sid t)
  | .stepw sid w, s =>
    let t := s.advanceBytes (s.prog sid) (wordBytes w) &&& s.mask sentIndex
    ret (boolVal (noCompletion t s.block.bsm)) (s.setSession sid ⟨t, unpack s.block.nlen (t &&& s.block.bsm)⟩)
  | .haspend sid, s => ret (boolVal (s.draining sid)) s
  | .nextoff sid, s =>
    if s.pend sid = 0 then raise .precondition 0 s
    else ret (BitVec.ofNat 16 (nextOffset (s.pend sid)))
      (s.setPend sid (clearOffset (s.pend sid) (nextOffset (s.pend sid))))
  | .getlen _, s => ret (s.block.nlen.setWidth 16) s

/-- Every session command is its own rule behind the common checks (R104). -/
theorem exec_session {i : Instr} {sid : SessionId} (h : i.session? = some sid) (s : State) :
    exec i s = sessionCommand sid s (ownRule i) := by
  cases i <;> simp only [Instr.session?, Option.some.injEq, reduceCtorEq] at h <;> subst h <;> rfl

/-- A ready session's command runs its own rule. -/
theorem exec_ready {i : Instr} {sid : SessionId} (h : i.session? = some sid) {s : State} (hr : Safety.Ready sid s) :
    exec i s = .next (ownRule i s) := by
  rw [exec_session h, sessionCommand_ready _ hr.1 hr.2]

/-- A `COMPILE` of a legal length installs the needle's table (R64). -/
theorem exec_compile_legal {needle : List Byte} (s : State) (h1 : 1 ≤ needle.length) (h2 : needle.length ≤ 57) :
    exec (.compile needle) s = .next (ret 0 { s with block := s.block.install needle }) := by
  simp only [exec, execCompile, legalLength_iff.mpr ⟨h1, h2⟩, if_true]

/-- A `COMPILE` of another length is refused (R65). -/
theorem exec_compile_illegal {needle : List Byte} (s : State) (h : ¬ (1 ≤ needle.length ∧ needle.length ≤ 57)) :
    exec (.compile needle) s = .next (raise .invalidPattern (invalidPatternVal needle.length) s) := by
  simp only [exec, execCompile, legalLength_iff, h, if_false]

/-- Every meaning answers a next state: nothing faults and nothing is refused. -/
theorem exec_next (i : Instr) (s : State) : ∃ t, exec i s = .next t := by
  cases i <;> exact ⟨_, rfl⟩

end Sys2Proof.Machine
end

