-- ==== Sys2Proof/Laws/Invariant.lean ====
section
/-! SUPPORT. How the block updates bear on the invariant of 10_state.md section 4: installing a table gives it, writing
one present session of a block with a table keeps it. -/

namespace Sys2Proof.Machine

open Sys2Proof.Safety

/-- A table installed over a canonical one meets the invariant (R27, R64). -/
theorem blockInv_install {b : Block} (h : b.mt.wf) {needle : List Byte} (h1 : 1 ≤ needle.length)
    (h2 : needle.length ≤ 57) : BlockInv (b.install needle) := by
  have hn := Block.nlen_install_toNat b h2
  refine ⟨wf_compiledMasks h _, ?_, ?_, ?_, ?_, ?_, ?_, ?_, ?_, ?_⟩
  · simp [Session.zero]
  · intro _; omega
  · intro _; rw [hn]; rfl
  · intro _; rw [hn]; rfl
  · intro _; exact Block.mask_install_sentinel h _
  · intro _ v p hp hp'
    rw [hn] at hp
    rw [Block.getLsbD_mask_install h _ _ hp']; simp [hp]
  · intro _ p hp
    rw [hn] at hp
    refine ⟨needle[p], fun u => ?_⟩
    rw [Block.getLsbD_mask_install h _ _ (by omega)]
    simp [show ¬ needle.length ≤ p by omega, List.getElem?_eq_getElem hp, eq_comm]
  · intro h; simp at h
  · simp

/-- Writing a byte-wide `PEND` to a present session of a block with a table keeps the invariant (R27). -/
theorem blockInv_setSession {b : Block} (h : BlockInv b) {sid : SessionId} {x : Session}
    (hp : sid.toNat < Config.nSess) (htv : b.tv = true) (hx : x.pend ≤ 0xFF) : BlockInv (b.setSession sid x) := by
  refine ⟨h.memory, fun r => ?_, h.length, h.ssm, h.bsm, h.sentinel, h.permissiveBits, h.oneByte, ?_, fun r hr => ?_⟩
  · rw [Block.session_setSession]; split
    · exact hx
    · exact h.pendByte r
  · intro h'; simp [htv] at h'
  · rw [Block.session_setSession]; split
    · subst_vars; omega
    · exact h.absent r hr

end Sys2Proof.Machine
end

