-- ==== Sys2Proof/Laws/PerInstr.lean ====
section
/-! SUPPORT. Statements about every command as syntax, one lemma per constructor of `Instr`. -/

namespace Sys2Proof.Laws

/-- The encoded packet of a command has two header bytes that select a row of R48, and, for a well-formed command, as
many payload bytes as the header tells (R47). -/
def EncodedHeader.Statement (i : Instr) : Prop :=
  ∃ (b0 b1 : Byte) (payload : List Byte), encode i = b0 :: b1 :: payload ∧
    (i.wellFormed = true → payload.length = payloadLength (header b0 b1)) ∧
    ∃ row ∈ opcodeTable, row.selects (header b0 b1) = true

/-- A header with a zero `LEN` selects the row of its opcode, whatever the session id. -/
theorem selects_session (sid : SessionId) : ∀ op : BitVec 4, 2 ≤ op.toNat → op.toNat ≤ 7 →
    ∃ row ∈ opcodeTable, row.selects (header (sid ++ op) 0) = true := by
  revert sid; decide

theorem EncodedHeader.compile (needle : List Byte) : EncodedHeader.Statement (.compile needle) := by
  refine ⟨0 ++ 0x1, BitVec.ofNat 8 needle.length, needle, rfl, fun h => ?_, ?_⟩
  · have h : needle.length ≤ 255 := by simpa [Instr.wellFormed] using h
    rw [payloadLength, headerOp_header, if_pos rfl, headerLen_header, BitVec.toNat_ofNat]
    omega
  · refine ⟨_, List.mem_cons_self, ?_⟩
    have : ∀ len : BitVec 8, header ((0 : SessionId) ++ (0x1 : BitVec 4)) len &&& 0x00FF = 0x0001 := by decide
    simpa [OpcodeRow.selects] using this _

theorem EncodedHeader.reset (sid : SessionId) : EncodedHeader.Statement (.reset sid) :=
  ⟨_, _, _, rfl, fun _ => by simp [payloadLength], selects_session sid 0x2 (by decide) (by decide)⟩

theorem EncodedHeader.stepb (sid : SessionId) (b : Byte) : EncodedHeader.Statement (.stepb sid b) :=
  ⟨_, _, _, rfl, fun _ => by simp [payloadLength], selects_session sid 0x3 (by decide) (by decide)⟩

theorem EncodedHeader.stepw (sid : SessionId) (w : Word) : EncodedHeader.Statement (.stepw sid w) :=
  ⟨_, _, _, rfl, fun _ => by simp [payloadLength], selects_session sid 0x4 (by decide) (by decide)⟩

theorem EncodedHeader.haspend (sid : SessionId) : EncodedHeader.Statement (.haspend sid) :=
  ⟨_, _, _, rfl, fun _ => by simp [payloadLength], selects_session sid 0x5 (by decide) (by decide)⟩

theorem EncodedHeader.nextoff (sid : SessionId) : EncodedHeader.Statement (.nextoff sid) :=
  ⟨_, _, _, rfl, fun _ => by simp [payloadLength], selects_session sid 0x6 (by decide) (by decide)⟩

theorem EncodedHeader.getlen (sid : SessionId) : EncodedHeader.Statement (.getlen sid) :=
  ⟨_, _, _, rfl, fun _ => by simp [payloadLength], selects_session sid 0x7 (by decide) (by decide)⟩

end Sys2Proof.Laws
end

