-- ==== Sys2Proof/Tests/Slice0.lean ====
section
/-! SUPPORT. Tests against the spec's own vectors (95_test_vectors.md, numbers V, S and P), and for every statement with
hypotheses a witness that meets them. The spec's vectors take `N_SESS = 2`; here only session 0 is stepped, which every
instance has. -/

namespace Sys2Proof.Tests

open Sys2Proof Sys2Proof.Machine Sys2Proof.Safety

/-! ### Helpers -/

/-- The table of a needle, session 0 with the given registers, and the given bytes presented. -/
def scan (needle : List Byte) (prog pend : Word) (port : List Byte := []) : State :=
  ⟨(Block.powerOn.install needle).setSession 0 ⟨prog, pend⟩, port, []⟩

/-- What a test looks at: the registers of session 0 and the responses. -/
def look : Host.Outcome State Fault Refusal → Option (Word × Word × List Response)
  | .next t => some (t.prog 0, t.pend 0, t.responses)
  | .fault _ => none
  | .refused _ => none

/-- The entries of the table at the given indexes. -/
def masksAt (is : List Index) : Host.Outcome State Fault Refusal → Option (List Word)
  | .next t => some (is.map t.mask)
  | .fault _ => none
  | .refused _ => none

/-- The bytes of `01 02 .. 39` (V7). -/
def needle57 : List Byte := (List.range 57).map fun p => BitVec.ofNat 8 (p + 1)

/-! ### Well-formedness (R52) -/

theorem test_wellFormed_refuses_needle_of_256 : (Instr.compile (List.replicate 256 0x61)).wellFormed = false := by
  decide +kernel

theorem test_wellFormed_accepts_needle_of_255 : (Instr.compile (List.replicate 255 0x61)).wellFormed = true := by
  decide +kernel

/-! ### Decoding: packets written out from R46 to R50 and R62 -/

theorem test_decode_compile : decode [0x01, 0x02, 0x61, 0x62, 0x05] = .command (.compile [0x61, 0x62]) [0x05] := by decide

theorem test_decode_compile_empty : decode [0x01, 0x00] = .command (.compile []) [] := by decide

theorem test_decode_reset : decode [0x12, 0x00] = .command (.reset 1) [] := by decide

theorem test_decode_stepb : decode [0xF3, 0x00, 0x61, 0x07] = .command (.stepb 15 0x61) [0x07] := by decide

theorem test_decode_stepw : decode [0x24, 0x00, 0x01, 0x23, 0x45, 0x67, 0x89, 0xAB, 0xCD, 0xEF] =
    .command (.stepw 2 0xEFCDAB8967452301) [] := by decide

theorem test_decode_haspend : decode [0x35, 0x00] = .command (.haspend 3) [] := by decide

theorem test_decode_nextoff : decode [0xF6, 0x00] = .command (.nextoff 15) [] := by decide

theorem test_decode_getlen : decode [0x87, 0x00] = .command (.getlen 8) [] := by decide

/-- V38: a reserved opcode has no payload, whatever `LEN` says. -/
theorem test_decode_reserved_op : decode [0xF9, 0x07, 0x05, 0x00] = .illegal .reservedOp [0x05, 0x00] := by decide

/-- V39, V37 and program P4: a reserved field refuses the packet, and its payload is still consumed. -/
theorem test_decode_reserved_field :
    decode [0x03, 0x01, 0x61, 0x05] = .illegal .reservedField [0x05] ∧
    decode [0x11, 0x01, 0x61, 0x05] = .illegal .reservedField [0x05] ∧
    decode [0x11, 0x00] = .illegal .reservedField [] ∧
    decode [0x02, 0x01] = .illegal .reservedField [] := by decide

/-- A packet that is not whole is no command (R59). -/
theorem test_decode_incomplete :
    decode [] = .incomplete ∧ decode [0x02] = .incomplete ∧ decode [0x03, 0x00] = .incomplete ∧
    decode [0x01, 0x02, 0x61] = .incomplete ∧
    decode [0x04, 0x00, 0x61, 0x61, 0x61, 0x61, 0x78, 0x78, 0x78] = .incomplete := by decide

/-- Opcode-table words: the operand bytes above the table's 16 bits are zero. -/
theorem test_decodeTableWord :
    decodeTableWord 16 0x0001 = some (.compile []) ∧
    decodeTableWord 16 0x0201 = some (.compile [0x00, 0x00]) ∧
    decodeTableWord 16 0x0012 = some (.reset 1) ∧
    decodeTableWord 24 0x610003 = some (.stepb 0 0x61) ∧
    decodeTableWord 80 0x78787878616161610004 = some (.stepw 0 0x7878787861616161) ∧
    decodeTableWord 16 0x00F7 = some (.getlen 15) ∧
    decodeTableWord 16 0x0009 = none := by decide +kernel

/-! ### COMPILE (2.1) -/

/-- V4: the masks of "abc". -/
theorem test_compile_masks : masksAt [0x61, 0x62, 0x63, 0, 255, 256] (exec (.compile [0x61, 0x62, 0x63]) State.reset) =
    some [0xFFFFFFFFFFFFFFF9, 0xFFFFFFFFFFFFFFFA, 0xFFFFFFFFFFFFFFFC, 0xFFFFFFFFFFFFFFF8, 0xFFFFFFFFFFFFFFF8,
      0xFFFFFFFFFFFFFFFF] := by decide +kernel

/-- The refusals of 2.1: 58 bytes, with `VAL = 0x393A`. -/
theorem test_compile_refuses_58 : look (exec (.compile (List.replicate 58 0x61)) State.reset) =
    some (0, 0, [⟨.invalidPattern, 0x393A⟩]) := by decide +kernel

/-! ### RESET and GETLEN (2.2) -/

/-- V8. -/
theorem test_reset : look (exec (.reset 0) (scan [0x61, 0x61] 0xF 0xE)) = some (0, 0, [⟨.ok, 0⟩]) := by decide +kernel

/-- V10. -/
theorem test_getlen : look (exec (.getlen 0) (scan needle57 0 0)) = some (0, 0, [⟨.ok, 57⟩]) := by decide +kernel

/-! ### STEPB (2.3) -/

/-- V13c, with something pending: the history bit is kept, `PEND` is untouched. -/
theorem test_stepb_keeps_history : look (exec (.stepb 0 0x78) (scan [0x61, 0x61] 0x3 0x0E)) =
    some (0x4, 0x0E, [⟨.ok, 1⟩]) := by decide +kernel

/-- V13h: a completion at the top of the live range of a 57-byte needle. -/
theorem test_stepb_completes_57 : look (exec (.stepb 0 0x39) (scan needle57 0x0080000000000000 0)) =
    some (0x0100000000000000, 0, [⟨.ok, 0⟩]) := by decide +kernel

/-! ### STEPW (2.4) -/

/-- V17: two completions, the first of which straddles two words. -/
theorem test_stepw_straddles :
    look (exec (.stepw 0 (wordOfBytes [0x63, 0x78, 0x78, 0x61, 0x62, 0x63, 0x61, 0x62]))
      (scan [0x61, 0x62, 0x63] 0x2 0)) = some (0x212, 0x21, [⟨.ok, 0⟩]) := by decide +kernel

/-- V24: the window's top bit is bit 63. -/
theorem test_stepw_headroom :
    look (exec (.stepw 0 (wordOfBytes [0x39, 0xAA, 0xAA, 0xAA, 0xAA, 0xAA, 0xAA, 0xAA]))
      (scan needle57 0x0080000000000000 0)) = some (0x8000000000000000, 0x01, [⟨.ok, 0⟩]) := by decide +kernel

/-! ### HASPEND and NEXTOFF (2.5) -/

/-- V25. -/
theorem test_haspend_draining : look (exec (.haspend 0) (scan [0x61] 0x5 0x0E)) = some (0x5, 0x0E, [⟨.ok, 1⟩]) := by
  decide +kernel

/-- V26. -/
theorem test_haspend_idle : look (exec (.haspend 0) (scan [0x61] 0x5 0)) = some (0x5, 0, [⟨.ok, 0⟩]) := by
  decide +kernel

/-- V27. -/
theorem test_nextoff_latest_first : look (exec (.nextoff 0) (scan [0x61] 0x5 0x0E)) = some (0x5, 0x06, [⟨.ok, 4⟩]) := by
  decide +kernel

/-- V30. -/
theorem test_nextoff_idle : look (exec (.nextoff 0) (scan [0x61] 0x5 0)) = some (0x5, 0, [⟨.precondition, 0⟩]) := by
  decide +kernel

/-! ### Errors and responses (2.7, 30_encoding.md R60) -/

/-- V36 and program P4 line 1, by a step: `NO_TABLE` from reset; the packet is consumed. -/
theorem test_step_no_table : look (step (present [0x06, 0x00] State.reset)) = some (0, 0, [⟨.noTable, 0⟩]) := by
  decide +kernel

/-- V40, by a step. -/
theorem test_step_all_zero_header : look (step (present [0x00, 0x00] State.reset)) =
    some (0, 0, [⟨.illegalCommand, 0⟩]) := by decide +kernel

/-- V35: a session no instance of fewer than 16 contexts has is refused before the table is looked at. -/
theorem test_bad_session_first (h : Config.nSess ≤ 15) :
    look (exec (.nextoff 15) State.reset) = some (0, 0, [⟨.badSession, 0⟩]) := by
  rw [exec_session (sid := 15) rfl, sessionCommand_bad _ (by simpa using h)]
  decide

/-- The written responses of R60 and R62. -/
theorem test_response_text : Response.text ⟨.ok, 1⟩ = "-> OK 1" ∧
    Response.text ⟨.invalidPattern, 0x393A⟩ = "-> INVALID_PATTERN max=57 got=58" := by decide +kernel

/-! ### Witnesses: for each statement with hypotheses, a state and operands that meet them -/

/-- Session 0 exists in every instance, so it is ready once a table is installed. -/
theorem scan_ready (needle : List Byte) (prog pend : Word) (port : List Byte) :
    Ready 0 (scan needle prog pend port) := ⟨nSess_bounds.1, rfl⟩

/-- The invariant of the helper's states. -/
theorem scan_inv {needle : List Byte} (h1 : 1 ≤ needle.length) (h2 : needle.length ≤ 57) {pend : Word}
    (hp : pend ≤ 0xFF) (prog : Word) (port : List Byte) : BlockInv (scan needle prog pend port).block :=
  blockInv_setSession (blockInv_install Memory.wf_nil h1 h2) nSess_bounds.1 rfl hp

/-- `EveryStepKeepsBlockInvariant`: a `STEPW` of "aaaaaaaa" on the port of a draining session. -/
theorem test_witness_EveryStepKeepsBlockInvariant :
    BlockInv (scan [0x61] 0x5 0xFF [0x04, 0x00, 0x61, 0x61, 0x61, 0x61, 0x61, 0x61, 0x61, 0x61]).block ∧
    ∃ t, step (scan [0x61] 0x5 0xFF [0x04, 0x00, 0x61, 0x61, 0x61, 0x61, 0x61, 0x61, 0x61, 0x61]) = .next t :=
  ⟨scan_inv (by decide) (by decide) (by decide) _ _, _, rfl⟩

/-- `DecodeInvertsEncode`: the longest needle, and a session command at the ends of its fields. -/
theorem test_witness_DecodeInvertsEncode : (Instr.compile (List.replicate 255 0xFF)).wellFormed = true ∧
    (Instr.compile []).wellFormed = true ∧ (Instr.stepw 15 ones).wellFormed = true := by decide +kernel

/-- `DecodedCommandsAreTheirOwnPackets`, `StepRunsTheDecodedCommand`. -/
theorem test_witness_DecodedCommandsAreTheirOwnPackets :
    decode (scan [0x61] 0 0 [0x13, 0x00, 0x62, 0x05]).cmdPort = .command (.stepb 1 0x62) [0x05] := by decide

/-- `OpcodeRowsAreDisjoint`: the `COMPILE` row on its header of greatest length. -/
theorem test_witness_OpcodeRowsAreDisjoint : ∃ r ∈ opcodeTable, r.mnemonic = "COMPILE" ∧ r.selects 0xFF01 = true :=
  ⟨_, List.mem_cons_self, rfl, by decide⟩

/-- `DecodeFollowsPacketProcedure`: headers that meet each clause, at the ends of the length field. -/
theorem test_witness_DecodeFollowsPacketProcedure :
    (0x0001 : BitVec 16) &&& 0x00FF = 0x0001 ∧ (0xFF01 : BitVec 16) &&& 0x00FF = 0x0001 ∧
    (0x00F2 : BitVec 16) &&& 0xFF0F = 0x0002 ∧ (0x0003 : BitVec 16) &&& 0xFF0F = 0x0003 ∧
    (0x00F4 : BitVec 16) &&& 0xFF0F = 0x0004 ∧ (0x0005 : BitVec 16) &&& 0xFF0F = 0x0005 ∧
    (0x00F6 : BitVec 16) &&& 0xFF0F = 0x0006 ∧ (0x0007 : BitVec 16) &&& 0xFF0F = 0x0007 ∧
    (0x0107 : BitVec 16) &&& 0x00FF ≠ 0x0001 ∧
    (∀ op : BitVec 16, 2 ≤ op → op ≤ 7 → (0x0107 : BitVec 16) &&& 0xFF0F ≠ op) ∧
    (∀ k < 8, (wordBytes 0x7878787861616161)[k]? = some ((0x7878787861616161 : Word).extractLsb' (8 * k) 8)) ∧
    decode State.reset.cmdPort = .incomplete ∧ step State.reset = .next State.reset := by
  refine ⟨by decide, by decide, by decide, by decide, by decide, by decide, by decide, by decide, by decide, ?_, by decide, rfl, rfl⟩
  intro op _ h e
  subst e
  exact absurd h (by decide)

/-- `PlacedWordRunsNext`: a word the decoder reads. -/
theorem test_witness_PlacedWordRunsNext : decodeTableWord 24 0x610003 = some (.stepb 0 0x61) := by decide +kernel

/-- `IllegalPacketsAreConsumedAndAnswered`: a packet for each clause, the reserved opcodes at both ends. -/
theorem test_witness_IllegalPacketsAreConsumedAndAnswered :
    (0x00 : Byte).extractLsb' 0 4 = 0 ∧ (8 : BitVec 4) ≤ (0xF8 : Byte).extractLsb' 0 4 ∧
    ((0x11 : Byte).extractLsb' 0 4 = 1 ∧ (0x11 : Byte).extractLsb' 4 4 ≠ 0 ∧ (0x01 : Byte).toNat ≤ [(0x61 : Byte)].length) ∧
    ((2 : BitVec 4) ≤ (0x02 : Byte).extractLsb' 0 4 ∧ (0x07 : Byte).extractLsb' 0 4 ≤ (7 : BitVec 4) ∧
      (0x01 : Byte) ≠ 0) := by decide

/-- `EveryWholePacketGetsOneResponse`: both of its clauses. -/
theorem test_witness_EveryWholePacketGetsOneResponse :
    decode State.reset.cmdPort = .incomplete ∧ decode (present [0x05, 0x00] State.reset).cmdPort ≠ .incomplete := by
  decide

/-- `ErrorsWriteNoState`: a refused step. -/
theorem test_witness_ErrorsWriteNoState :
    ∃ t r, step (present [0x06, 0x00] State.reset) = .next t ∧ t.responses = [] ++ [r] ∧ r.st ≠ .ok :=
  ⟨_, ⟨.noTable, 0⟩, rfl, by decide +kernel, by decide⟩

/-- `TableChangesOnlyAtCompile`, `TableValidFlagSetExactlyByCompile`: a step that compiles, and one that does not. -/
theorem test_witness_TableChangesOnlyAtCompile :
    (∃ t, step (present [0x01, 0x01, 0x61] State.reset) = .next t ∧ t.block.tv = true) ∧
    ∃ t, step (present [0x05, 0x00] State.reset) = .next t ∧ t.block.tv = false :=
  ⟨⟨_, rfl, by decide +kernel⟩, _, rfl, by decide +kernel⟩

/-- `SessionThenTableAreChecked`, the second clause: session 0 after reset. -/
theorem test_witness_SessionThenTableAreChecked :
    (Instr.nextoff 0).session? = some 0 ∧ (0 : SessionId).toNat < Config.nSess ∧ State.reset.block.tv = false :=
  ⟨rfl, nSess_bounds.1, rfl⟩

/-- The first clause, at its boundary: in an instance of fewer than 16 contexts, the first id that names none. With 16
contexts every id names one (R6, R51) and `BAD_SESSION` cannot happen. -/
theorem test_witness_SessionThenTableAreChecked_bad (h : Config.nSess ≤ 15) :
    (Instr.reset (BitVec.ofNat 4 Config.nSess)).session? = some (BitVec.ofNat 4 Config.nSess) ∧
    Config.nSess = (BitVec.ofNat 4 Config.nSess).toNat :=
  ⟨rfl, by rw [BitVec.toNat_ofNat, Nat.mod_eq_of_lt (by omega)]⟩

/-- Statements whose only hypothesis is a ready session (with `session?` for `ReadyCommandsFailOnlyInTheirOwnWay`):
`ResetCommandZeroesItsSession`, `GetlenReturnsTheNeedleLength`, `HaspendTellsWhetherDraining`,
`StepbAdvancesOneByte`. -/
theorem test_witness_Ready : (Instr.getlen 0).session? = some 0 ∧ Ready 0 (scan needle57 0x5 0x0E) ∧
    BlockInv (scan needle57 0x5 0x0E).block ∧ ∃ t, exec (.getlen 0) (scan needle57 0x5 0x0E) = .next t :=
  ⟨rfl, scan_ready _ _ _ _, scan_inv (by decide +kernel) (by decide +kernel) (by decide) _ _, exec_next _ _⟩

/-- `ResponseValuesFollowTheTable`: the invariant, a well-formed command and its one response. -/
theorem test_witness_ResponseValuesFollowTheTable :
    (Instr.nextoff 0).wellFormed = true ∧ BlockInv (scan [0x61] 0 0x80).block ∧
    ∃ t r, exec (.nextoff 0) (scan [0x61] 0 0x80) = .next t ∧ t.responses = (scan [0x61] 0 0x80).responses ++ [r] ∧
      r = ⟨.ok, 8⟩ :=
  ⟨rfl, scan_inv (by decide) (by decide) (by decide) _ _, _, ⟨.ok, 8⟩, rfl, by decide +kernel, rfl⟩

/-- The same for its first clause and for a refused needle. -/
theorem test_witness_ResponseValuesFollowTheTable_errors :
    (∃ t r, exec (.nextoff 0) State.reset = .next t ∧ t.responses = State.reset.responses ++ [r] ∧ r.st = .noTable) ∧
    ∃ t r, exec (.compile []) State.reset = .next t ∧ t.responses = State.reset.responses ++ [r] ∧
      r.st = .invalidPattern :=
  ⟨⟨_, ⟨.noTable, 0⟩, rfl, by decide +kernel, rfl⟩, _, ⟨.invalidPattern, 0x3900⟩, rfl, by decide +kernel, rfl⟩

/-- `HonouredCommandsAnswerOk`: the duties kept by each command, `COMPILE` at both ends of its range. -/
theorem test_witness_HonouredCommandsAnswerOk :
    honours (.compile [0x61]) State.reset ∧ honours (.compile needle57) State.reset ∧
    honours (.reset 0) (scan [0x61] 1 1) ∧ honours (.stepb 0 0x61) (scan [0x61] 1 0) ∧
    honours (.stepw 0 ones) (scan [0x61] 1 0) ∧ honours (.haspend 0) (scan [0x61] 1 1) ∧
    honours (.nextoff 0) (scan [0x61] 1 1) ∧ honours (.getlen 0) (scan [0x61] 1 1) := by
  refine ⟨⟨by decide, by decide⟩, show 1 ≤ needle57.length ∧ needle57.length ≤ 57 by decide +kernel,
    scan_ready _ _ _ _, ⟨scan_ready _ _ _ _, by decide +kernel⟩, ⟨scan_ready _ _ _ _, by decide +kernel⟩,
    scan_ready _ _ _ _, ⟨scan_ready _ _ _ _, by decide +kernel⟩, scan_ready _ _ _ _⟩

/-- `OtherSessionsAreNeitherWrittenNorRead`: a command, and two states that agree on its session and the table and differ
in another session. -/
theorem test_witness_OtherSessionsAreNeitherWrittenNorRead :
    (Instr.stepb 0 0x61).session? = some 0 ∧ (∃ t, exec (.stepb 0 0x61) (scan [0x61] 1 0) = .next t) ∧
    (∀ k : Index, ((scan [0x61] 1 0).setProg 1 7).mask k = (scan [0x61] 1 0).mask k) ∧
    ((scan [0x61] 1 0).setProg 1 7).prog 0 = (scan [0x61] 1 0).prog 0 ∧
    ((scan [0x61] 1 0).setProg 1 7).pend 0 = (scan [0x61] 1 0).pend 0 ∧
    ((scan [0x61] 1 0).setProg 1 7).prog 1 ≠ (scan [0x61] 1 0).prog 1 ∧
    ∃ v, exec (.stepb 0 0x61) ((scan [0x61] 1 0).setProg 1 7) = .next v :=
  ⟨rfl, exec_next _ _, fun k => Block.setSession_mask _ _ _ k, by decide +kernel, by decide +kernel, by decide +kernel,
    exec_next _ _⟩

/-- `CompileInstallsTheNeedlesTable`, `CompileIsAPureFunctionOfTheNeedle`, `CompileStartsTrackingTheNaiveMatcher`: a
canonical table, and needles at both ends of the range and next to it. -/
theorem test_witness_CompileInstallsTheNeedlesTable :
    State.reset.block.mt.wf ∧ (scan [0x61] 1 1).block.mt.wf ∧ needle57.length = 57 ∧ [(0x61 : Byte)].length = 1 ∧
    (0x3A :: needle57).length = 58 ∧ ([] : List Byte).length = 0 :=
  ⟨Memory.wf_nil, (scan_inv (by decide) (by decide) (by decide) _ _).memory, by decide, rfl, by decide, rfl⟩

/-- `CompileRefusesBadLengths`: a packet of each length at the ends of its clauses' ranges, refused (0, 58, 255) and
accepted (1, 57). -/
theorem test_witness_CompileRefusesBadLengths :
    ((58 : Byte) ≤ 58 ∧ (58 : Byte) ≤ 255 ∧ (1 : Byte) ≤ 1 ∧ (57 : Byte) ≤ 57) ∧
    ∀ len ∈ [(0 : Byte), 58, 255, 1, 57], ∃ (s : State) (payload rest : List Byte),
      s.cmdPort = 0x01 :: len :: (payload ++ rest) ∧ payload.length = len.toNat :=
  ⟨by decide, fun len _ => ⟨present (0x01 :: len :: (List.replicate len.toNat 0x61 ++ [0x05, 0x00])) State.reset,
    List.replicate len.toNat 0x61, [0x05, 0x00], rfl, List.length_replicate⟩⟩

/-- `StepwAdvancesEightBytes`: the temporaries of V15. -/
theorem test_witness_StepwAdvancesEightBytes :
    ∃ P : Nat → Word, Ready 0 (scan [0x61, 0x61] 0 0) ∧ P 0 = (scan [0x61, 0x61] 0 0).prog 0 ∧
      (∀ i < 8, P (i + 1) = ((P i <<< 1) ||| (1 : Word)) &&&
        (scan [0x61, 0x61] 0 0).mask (byteIndex ((0x7878787861616161 : Word).extractLsb' (8 * i) 8))) ∧ P 8 = 0xE0 :=
  ⟨fun i => [0, 1, 3, 7, 0xF, 0x1C, 0x38, 0x70, 0xE0].getD i 0, scan_ready _ _ _ _, by decide +kernel, by decide +kernel,
    by decide⟩

/-- `WordStepEqualsEightByteSteps`, `CompletionsMoveUpTheHistory`, `SessionStateMachineOfRule93`: the invariant and a
ready session. -/
theorem test_witness_WordStepEqualsEightByteSteps :
    BlockInv (scan needle57 0x8000000000000001 0x0E).block ∧ Ready 0 (scan needle57 0x8000000000000001 0x0E) :=
  ⟨scan_inv (by decide +kernel) (by decide +kernel) (by decide) _ _, scan_ready _ _ _ _⟩

/-- The clauses of `SessionStateMachineOfRule93` on `PEND`: several bits, one bit, none. -/
theorem test_witness_SessionStateMachineOfRule93 :
    ((scan [0x61] 1 0x81).pend 0).getLsbD 0 = true ∧ ((scan [0x61] 1 0x81).pend 0).getLsbD 7 = true ∧
    (∀ q < 64, ((scan [0x61] 1 0x80).pend 0).getLsbD q = true ↔ q = 7) ∧ (scan [0x61] 1 0).idle 0 = true := by
  decide +kernel

/-- The live and the history range of `CompletionsMoveUpTheHistory` at its ends, for a needle of 57 bytes. -/
theorem test_witness_CompletionsMoveUpTheHistory : (scan needle57 0 0).block.nlen.toNat = 57 := by decide +kernel

/-- `StepsDoNotReadPending`: two states that differ in `PEND[0]`. -/
theorem test_witness_StepsDoNotReadPending : Ready 0 (scan [0x61] 1 0) ∧
    scan [0x61] 1 0xFF = (scan [0x61] 1 0).setPend 0 0xFF :=
  ⟨scan_ready _ _ _ _, by decide +kernel⟩

/-- `EqualSessionsStepAlike`: an earlier and a later state with equal progress, the later one draining. -/
theorem test_witness_EqualSessionsStepAlike :
    Ready 0 (scan [0x61] 5 0) ∧ Ready 0 (scan [0x61] 5 0xFF) ∧ (scan [0x61] 5 0).prog 0 = (scan [0x61] 5 0xFF).prog 0 ∧
    (∀ k : Index, (scan [0x61] 5 0xFF).mask k = (scan [0x61] 5 0).mask k) ∧
    (scan [0x61] 5 0xFF).block.nlen = (scan [0x61] 5 0).block.nlen ∧
    (scan [0x61] 5 0xFF).block.ssm = (scan [0x61] 5 0).block.ssm ∧
    (scan [0x61] 5 0xFF).block.bsm = (scan [0x61] 5 0).block.bsm :=
  ⟨scan_ready _ _ _ _, scan_ready _ _ _ _, by decide +kernel, fun k => (Block.setSession_mask _ _ _ k).trans
    (Block.setSession_mask _ _ _ k).symm, rfl, rfl, rfl⟩

/-- The same for two different sessions, in an instance that has two. -/
theorem test_witness_EqualSessionsStepAlike_two (h : 2 ≤ Config.nSess) :
    Ready 0 (scan [0x61] 0 0) ∧ Ready 1 (scan [0x61] 0 0) ∧ (scan [0x61] 0 0).prog 0 = (scan [0x61] 0 0).prog 1 :=
  ⟨scan_ready _ _ _ _, ⟨h, rfl⟩, by decide +kernel⟩

/-- `NextoffReportsAndClearsTheHighestBit`, `DrainReportsEachCompletionOnceLatestFirst`: a draining session, with the
least and the greatest offset. -/
theorem test_witness_NextoffReportsAndClearsTheHighestBit :
    Ready 0 (scan [0x61] 1 0x81) ∧ (scan [0x61] 1 0x81).pend 0 ≠ 0 ∧ (scan [0x61] 1 0x81).pend 0 ≤ 0xFF :=
  ⟨scan_ready _ _ _ _, by decide +kernel, by decide +kernel⟩

/-- `NextoffOnIdleSessionIsRefused`. -/
theorem test_witness_NextoffOnIdleSessionIsRefused :
    Ready 0 (scan [0x61] 1 0) ∧ (scan [0x61] 1 0).pend 0 = 0 := ⟨scan_ready _ _ _ _, by decide +kernel⟩

/-- The naive matcher of "a" whose session 0 has taken one 'a'. -/
def naiveA : Naive := ⟨[0x61], fun r => if r = 0 then ⟨[0x61], []⟩ else ⟨[], []⟩⟩

/-- `EveryCommandTracksTheNaiveMatcher`: the needle "a" after `STEPB 0, 'a'` on an empty stream (V13a). -/
theorem test_witness_EveryCommandTracksTheNaiveMatcher :
    (scan [0x61] 1 0).block.mt.wf ∧ Tracks naiveA (scan [0x61] 1 0).block ∧
    answerable (.stepb 0 0x61) ∧ answerable (.nextoff 0) ∧ answerable (.compile needle57) := by
  have hi : BlockInv (scan [0x61] 1 0).block := scan_inv (by decide) (by decide) (by decide) _ _
  have h0 : naiveA.scan 0 = ⟨[0x61], []⟩ := rfl
  have hn : ∀ r : SessionId, r ≠ 0 → naiveA.scan r = ⟨[], []⟩ := fun r h => if_neg h
  have hs : ∀ r : SessionId, r ≠ 0 → (scan [0x61] 1 0).block.session r = Session.zero := fun r h => by
    simp only [scan, Block.session_setSession_other _ _ h, Block.session_install]
  refine ⟨hi.memory, ⟨⟨rfl, by decide, by decide, by decide +kernel, by decide +kernel, by decide +kernel, hi.sentinel rfl, ?_⟩,
    ?_, ?_, ?_, ?_⟩,
    nSess_bounds.1, nSess_bounds.1, show 1 ≤ needle57.length ∧ needle57.length ≤ 57 by decide +kernel⟩
  · intro v p hp
    rw [scan, Block.setSession_mask, Block.getLsbD_mask_install Memory.wf_nil _ _ hp]; simp [naiveA]
  · intro r _
    by_cases h : r = 0
    · subst h
      rw [show ((scan [0x61] 1 0).block.session 0).prog = 1 by decide +kernel, h0]
      refine ⟨fun p hp => ?_, fun p hp _ => ?_⟩
      · obtain rfl : p = 0 := by simpa [naiveA] using hp
        simp [naiveA]
      · have h1 : 1 ≤ p := by simpa [naiveA] using hp
        obtain rfl | h2 : p = 1 ∨ 2 ≤ p := by omega
        · decide
        · simp [naiveA, show p ≠ 0 by omega]; omega
    · rw [hs r h, hn r h]
      refine ⟨fun p _ => ?_, fun p hp _ => ?_⟩
      · simp [naiveA, Session.zero]
      · have h1 : 1 ≤ p := by simpa [naiveA] using hp
        simp [naiveA, Session.zero]
  · intro r; by_cases h : r = 0
    · rw [h, h0]; simp
    · simp [hn r h]
  · intro r; by_cases h : r = 0
    · rw [h, h0]; simp
    · simp [hn r h]
  · intro r _ k _; by_cases h : r = 0
    · subst h
      rw [show ((scan [0x61] 1 0).block.session 0).pend = 0 by decide +kernel, h0]; simp
    · rw [hs r h, hn r h]; simp [Session.zero]

/-- `RunsAnswerAsTheNaiveMatcher`: a run that holds every command. -/
theorem test_witness_RunsAnswerAsTheNaiveMatcher :
    State.reset.block.mt.wf ∧ ∀ i ∈ [Instr.stepb 0 0x61, .stepw 0 ones, .haspend 0, .nextoff 0, .getlen 0, .reset 0,
      .compile [0x61]], answerable i := by
  refine ⟨Memory.wf_nil, ?_⟩
  intro i hi
  have h0 : (0 : SessionId).toNat < Config.nSess := nSess_bounds.1
  simp only [List.mem_cons, List.not_mem_nil, or_false] at hi
  rcases hi with rfl | rfl | rfl | rfl | rfl | rfl | rfl <;> first | exact h0 | exact ⟨by decide, by decide⟩

end Sys2Proof.Tests
end

section
/-! The state family (10_state.md): what a command that names a session can write and read (R16), and what no step but a
successful `COMPILE` changes (R22). -/

namespace Sys2Proof.Proofs

open Sys2Proof Sys2Proof.Machine Sys2Proof.Safety

/-! ### The end of a session command: its own context written, one response given -/

/-- The state a command of session `sid` leaves when it puts `x` in its context and answers `r`. -/
def answered (sid : SessionId) (x : Session) (r : Response) (s : State) : State :=
  respond r.st r.val (s.setSession sid x)

section Answered
variable (sid : SessionId) (x : Session) (r : Response) (s : State)

@[simp] theorem answered_block : (answered sid x r s).block = s.block.setSession sid x := rfl
@[simp] theorem answered_cmdPort : (answered sid x r s).cmdPort = s.cmdPort := rfl
@[simp] theorem answered_responses : (answered sid x r s).responses = s.responses ++ [r] := rfl

@[simp] theorem answered_prog_self : (answered sid x r s).prog sid = x.prog := by simp [State.prog]
@[simp] theorem answered_pend_self : (answered sid x r s).pend sid = x.pend := by simp [State.pend]

/-- Writing back the registers a context holds leaves a response and nothing else. -/
theorem answered_own_registers : answered sid ⟨s.prog sid, s.pend sid⟩ r s = respond r.st r.val s :=
  congrArg (respond r.st r.val) <|
    State.ext_fields (Block.setSession_session s.block sid) rfl rfl

/-- `answered` writes one context and the response port (R16). -/
theorem sessionFrame_answered : SessionFrame sid s (answered sid x r s) where
  masks _ := rfl
  nlen := rfl
  ssm := rfl
  bsm := rfl
  tv := rfl
  sessions k hk := by simp [State.prog, State.pend, hk]
  cmdPort := rfl

end Answered

/-! ### What a session command reads (R16) -/

/-- The table and the registers of session `sid` read alike in two states; every other session, and the ports, may
differ. -/
structure SameView (sid : SessionId) (s u : State) : Prop where
  masks : ∀ k : Index, u.mask k = s.mask k
  nlen : u.block.nlen = s.block.nlen
  ssm : u.block.ssm = s.block.ssm
  bsm : u.block.bsm = s.block.bsm
  tv : u.block.tv = s.block.tv
  prog : u.prog sid = s.prog sid
  pend : u.pend sid = s.pend sid

theorem SameView.refl (sid : SessionId) (s : State) : SameView sid s s :=
  ⟨fun _ => rfl, rfl, rfl, rfl, rfl, rfl, rfl⟩

theorem SameView.byteMask {sid : SessionId} {s u : State} (h : SameView sid s u) (b : Byte) :
    u.byteMask b = s.byteMask b := h.masks _

theorem SameView.advanceBytes {sid : SessionId} {s u : State} (h : SameView sid s u) (p : Word) (bs : List Byte) :
    u.advanceBytes p bs = s.advanceBytes p bs := by
  simp only [State.advanceBytes, h.byteMask]

theorem SameView.draining {sid : SessionId} {s u : State} (h : SameView sid s u) : u.draining sid = s.draining sid := by
  simp only [State.draining, h.pend]

/-- A response with nothing written, in two states of one view. -/
theorem SameView.respond_eq_answered {sid : SessionId} {s u : State} (h : SameView sid s u) (st : Status)
    (val : BitVec 16) :
    ∃ x r, respond st val s = answered sid x r s ∧ respond st val u = answered sid x r u := by
  refine ⟨⟨s.prog sid, s.pend sid⟩, ⟨st, val⟩, (answered_own_registers sid ⟨st, val⟩ s).symm, ?_⟩
  rw [← h.prog, ← h.pend]
  exact (answered_own_registers sid ⟨st, val⟩ u).symm

/-- The own rule of a command writes its session as the view tells, and answers as the view tells. -/
theorem ownRule_of_sameView {i : Instr} {sid : SessionId} (hi : i.session? = some sid) {s u : State}
    (h : SameView sid s u) :
    ∃ x r, ownRule i s = answered sid x r s ∧ ownRule i u = answered sid x r u := by
  cases i with
  | compile needle => cases hi
  | reset sid' =>
    cases hi
    exact ⟨Session.zero, ⟨.ok, 0⟩, rfl, rfl⟩
  | stepb sid' b =>
    cases hi
    refine ⟨⟨advance (s.prog sid) (s.byteMask b), s.pend sid⟩, ⟨.ok, _⟩, rfl, ?_⟩
    simp only [ownRule, State.setProg, h.prog, h.pend, h.byteMask, h.ssm]; rfl
  | stepw sid' w =>
    cases hi
    refine ⟨⟨s.advanceBytes (s.prog sid) (wordBytes w) &&& s.mask sentIndex, _⟩, ⟨.ok, _⟩, rfl, ?_⟩
    simp only [ownRule, h.prog, h.advanceBytes, h.masks, h.bsm, h.nlen]; rfl
  | haspend sid' =>
    cases hi
    simp only [ownRule, h.draining]
    exact h.respond_eq_answered .ok _
  | nextoff sid' =>
    cases hi
    simp only [ownRule, h.pend]
    by_cases hp : s.pend sid = 0
    · simp only [hp, if_true]
      exact h.respond_eq_answered .precondition 0
    · simp only [hp, if_false]
      refine ⟨⟨s.prog sid, clearOffset (s.pend sid) (nextOffset (s.pend sid))⟩, ⟨.ok, _⟩, rfl, ?_⟩
      simp only [State.setPend, h.prog]; rfl
  | getlen sid' =>
    cases hi
    simp only [ownRule, h.nlen]
    exact h.respond_eq_answered .ok _

/-- The whole effect of a session command, its common checks included, is one write to its own context and one response,
both told by its view. -/
theorem exec_of_sameView {i : Instr} {sid : SessionId} (hi : i.session? = some sid) {s u : State}
    (h : SameView sid s u) :
    ∃ x r, exec i s = .next (answered sid x r s) ∧ exec i u = .next (answered sid x r u) := by
  rw [exec_session hi, exec_session hi]
  rcases Nat.lt_or_ge sid.toNat Config.nSess with hp | hp
  · cases htv : s.block.tv with
    | false =>
      rw [sessionCommand_noTable _ hp htv, sessionCommand_noTable _ hp (h.tv.trans htv)]
      obtain ⟨x, r, hs, hu⟩ := h.respond_eq_answered .noTable 0
      exact ⟨x, r, congrArg _ hs, congrArg _ hu⟩
    | true =>
      rw [sessionCommand_ready _ hp htv, sessionCommand_ready _ hp (h.tv.trans htv)]
      obtain ⟨x, r, hs, hu⟩ := ownRule_of_sameView hi h
      exact ⟨x, r, congrArg _ hs, congrArg _ hu⟩
  · rw [sessionCommand_bad _ hp, sessionCommand_bad _ hp]
    obtain ⟨x, r, hs, hu⟩ := h.respond_eq_answered .badSession 0
    exact ⟨x, r, congrArg _ hs, congrArg _ hu⟩

/-- A session command changes its own two registers and the response port, whatever it answers (R16, R22). -/
theorem exec_sessionFrame {i : Instr} {sid : SessionId} (hi : i.session? = some sid) {s t : State}
    (ht : exec i s = .next t) : SessionFrame sid s t := by
  obtain ⟨x, r, hs, -⟩ := exec_of_sameView hi (SameView.refl sid s)
  obtain rfl : answered sid x r s = t := by rw [hs] at ht; injection ht
  exact sessionFrame_answered sid x r s

/-! ### What `COMPILE` and power-on reset leave in the contexts (R25, R26) -/

theorem prog_pend_of_session_zero {s : State} {sid : SessionId} (h : s.block.session sid = Session.zero) :
    s.prog sid = 0 ∧ s.pend sid = 0 := by
  simp [State.prog, State.pend, h, Session.zero]

/-- A `COMPILE` has a legal length and zeroes every context, or writes no state of the block (R65, R68). -/
theorem exec_compile_cases {needle : List Byte} {s t : State} (ht : exec (.compile needle) s = .next t) :
    (1 ≤ needle.length ∧ needle.length ≤ 57 ∧ ∀ sid : SessionId, t.prog sid = 0 ∧ t.pend sid = 0) ∨
    t.block = s.block := by
  by_cases hl : 1 ≤ needle.length ∧ needle.length ≤ 57
  · obtain ⟨hmin, hmax⟩ := hl
    rw [exec_compile_legal s hmin hmax] at ht
    injection ht with ht
    subst ht
    exact .inl ⟨hmin, hmax, fun sid => prog_pend_of_session_zero (Block.session_install s.block needle sid)⟩
  · rw [exec_compile_illegal s hl] at ht
    injection ht with ht
    subst ht
    exact .inr rfl

/-- `COMPILE` is the one command that names no session (R51). -/
theorem eq_compile_of_session_none {i : Instr} (hi : i.session? = none) : ∃ needle, i = .compile needle := by
  cases i with
  | compile needle => exact ⟨needle, rfl⟩
  | _ => cases hi

/-- Two states with one block agree on every entry of the table, its constants and `TV`. -/
theorem table_eq_of_block_eq {s t : State} (h : t.block = s.block) :
    (∀ i : Index, t.mask i = s.mask i) ∧ t.block.nlen = s.block.nlen ∧ t.block.ssm = s.block.ssm ∧
      t.block.bsm = s.block.bsm ∧ t.block.tv = s.block.tv := by
  simp [State.mask, h]

/-! ### The obligations -/

/-- Settles O1. -/
theorem powerOnResetLeavesZeroSessionsAndNoTable : Obligations.PowerOnResetLeavesZeroSessionsAndNoTable :=
  ⟨rfl, fun sid _ => prog_pend_of_session_zero (Block.session_powerOn sid)⟩

/-- Settles O21: a session command's effect is one write to its own context, told by its view of the state. -/
theorem otherSessionsAreNeitherWrittenNorRead : Obligations.OtherSessionsAreNeitherWrittenNorRead := by
  refine ⟨fun needle s t ht => ?_, fun i sid s t hi ht => ⟨(exec_sessionFrame hi ht).sessions, ?_⟩⟩
  · exact (exec_compile_cases ht).imp_left fun ⟨_, _, hzero⟩ r _ => hzero r
  · intro u v hmasks hnlen hssm hbsm htv hprog hpend hv
    obtain ⟨x, r, hs, hu⟩ := exec_of_sameView hi ⟨hmasks, hnlen, hssm, hbsm, htv, hprog, hpend⟩
    obtain rfl : answered sid x r s = t := by rw [hs] at ht; injection ht
    obtain rfl : answered sid x r u = v := by rw [hu] at hv; injection hv
    exact ⟨by simp, by simp, r, answered_responses sid x r s, answered_responses sid x r u⟩

/-- Settles O15: of everything a step can do, only a `COMPILE` of a legal length is not framed. -/
theorem tableChangesOnlyAtCompile : Obligations.TableChangesOnlyAtCompile := by
  intro s t ht
  obtain ⟨i, rest, hd, he⟩ | ⟨why, rest, -, rfl⟩ | ⟨-, rfl⟩ := step_cases ht
  · cases hi : i.session? with
    | some sid =>
      have hf := exec_sessionFrame hi he
      exact .inr ⟨hf.masks, hf.nlen, hf.ssm, hf.bsm, hf.tv⟩
    | none =>
      obtain ⟨needle, rfl⟩ := eq_compile_of_session_none hi
      exact (exec_compile_cases he).imp
        (fun ⟨hmin, hmax, hzero⟩ => ⟨needle, rest, hd, hmin, hmax, fun sid _ => hzero sid⟩)
        table_eq_of_block_eq
  · exact .inr (table_eq_of_block_eq rfl)
  · exact .inr (table_eq_of_block_eq rfl)

end Sys2Proof.Proofs
end

section
/-! The encoding family (30_encoding.md): what the mask tests of R48 say about a header's fields, the decode procedure
of R59 on whole and on partial packets, the answer to the illegal command (R53, R54), and the response packet (R56). -/

namespace Sys2Proof.Proofs

open Sys2Proof Sys2Proof.Machine

/-! ### The header's fields and the masks of R48 -/

theorem headerOp_eq_low_bits (b0 b1 : Byte) : headerOp (header b0 b1) = b0.extractLsb' 0 4 :=
  BitVec.extractLsb'_append_eq_of_add_le (by decide)

theorem headerSid_eq_high_bits (b0 b1 : Byte) : headerSid (header b0 b1) = b0.extractLsb' 4 4 :=
  BitVec.extractLsb'_append_eq_of_add_le (by decide)

theorem headerOp_and (h m : BitVec 16) : headerOp (h &&& m) = headerOp h &&& headerOp m := BitVec.extractLsb'_and

theorem headerSid_and (h m : BitVec 16) : headerSid (h &&& m) = headerSid h &&& headerSid m := BitVec.extractLsb'_and

theorem headerLen_and (h m : BitVec 16) : headerLen (h &&& m) = headerLen h &&& headerLen m := BitVec.extractLsb'_and

/-- The mask of the `COMPILE` row tests `OP` and `SID`. -/
theorem fields_of_compileMask {h k : BitVec 16} (hk : h &&& 0x00FF = k) :
    headerOp h = headerOp k ∧ headerSid h = headerSid k := by
  subst hk
  rw [headerOp_and, headerSid_and]
  exact ⟨BitVec.and_allOnes.symm, BitVec.and_allOnes.symm⟩

/-- The mask of the six session rows tests `OP` and `LEN`. -/
theorem fields_of_sessionMask {h k : BitVec 16} (hk : h &&& 0xFF0F = k) :
    headerOp h = headerOp k ∧ headerLen h = headerLen k := by
  subst hk
  rw [headerOp_and, headerLen_and]
  exact ⟨BitVec.and_allOnes.symm, BitVec.and_allOnes.symm⟩

/-- The low four bits of a header, as a 16-bit number, are `OP` (R46). -/
theorem and_opMask_eq_iff (h : BitVec 16) (op : BitVec 4) : h &&& 0x000F = op.setWidth 16 ↔ headerOp h = op := by
  have hlow : (h &&& 0x000F).toNat = h.toNat % 2 ^ 4 := Nat.and_two_pow_sub_one_eq_mod _ 4
  have hop : (headerOp h).toNat = h.toNat % 2 ^ 4 := by simp [headerOp]
  rw [← BitVec.toNat_inj, ← BitVec.toNat_inj, hlow, hop, BitVec.toNat_setWidth_of_le (by decide)]

/-- R47 with the opcode as the low bits of packet byte 0. -/
theorem payloadLength_header (b0 b1 : Byte) : payloadLength (header b0 b1) =
    if b0.extractLsb' 0 4 = 1 then b1.toNat else if b0.extractLsb' 0 4 = 3 then 1
      else if b0.extractLsb' 0 4 = 4 then 8 else 0 := by
  rw [payloadLength, headerLen_header, headerOp_eq_low_bits]

/-- The same with the opcode tested by a mask on the header. -/
theorem payloadLength_eq_of_opMask (b0 b1 : Byte) : payloadLength (header b0 b1) =
    if header b0 b1 &&& 0x000F = 0x0001 then b1.toNat else if header b0 b1 &&& 0x000F = 0x0003 then 1
      else if header b0 b1 &&& 0x000F = 0x0004 then 8 else 0 := by
  rw [payloadLength_header, ← headerOp_eq_low_bits b0 b1]
  simp only [← and_opMask_eq_iff]
  rfl

/-! ### Which header selects which row (R48) -/

/-- A header of a session row is no header of `COMPILE`. -/
theorem not_compile_of_sessionMask {h k : BitVec 16} (hk : h &&& 0xFF0F = k) (hop : headerOp k ≠ 0x1) :
    h &&& 0x00FF ≠ 0x0001 :=
  fun hc => hop ((fields_of_sessionMask hk).1.symm.trans (fields_of_compileMask hc).1)

/-- The mask of the session rows keeps the opcode. -/
theorem opMask_of_sessionMask {h k : BitVec 16} (hk : h &&& 0xFF0F = k) : h &&& 0x000F = k &&& 0x000F := by
  rw [← hk, BitVec.and_assoc]; rfl

/-- A header that matches no row is the illegal command (R59 (5)). -/
theorem classify_illegal {h : BitVec 16} (hc : h &&& 0x00FF ≠ 0x0001)
    (hs : ∀ k : BitVec 16, 2 ≤ k → k ≤ 7 → h &&& 0xFF0F ≠ k) (payload rest : List Byte) :
    classify h payload rest = .illegal (rejectReason h) rest := by
  rw [classify_eq, if_neg hc, if_neg (hs _ _ _), if_neg (hs _ _ _), if_neg (hs _ _ _), if_neg (hs _ _ _),
    if_neg (hs _ _ _), if_neg (hs _ _ _)] <;> decide

/-- The illegal command told by the fields: neither a `COMPILE` with a zero `SID` nor a session command with a zero
`LEN` (R53, R54). -/
theorem classify_illegal_of_fields {h : BitVec 16} (hc : ¬(headerOp h = 1 ∧ headerSid h = 0))
    (hs : ¬(2 ≤ headerOp h ∧ headerOp h ≤ 7 ∧ headerLen h = 0)) (payload rest : List Byte) :
    classify h payload rest = .illegal (rejectReason h) rest := by
  refine classify_illegal (fun hk => hc (fields_of_compileMask hk)) (fun k h2 h7 hk => hs ?_) payload rest
  obtain ⟨hop, hlen⟩ := fields_of_sessionMask hk
  have hopk : (headerOp k).toNat = k.toNat % 2 ^ 4 := by simp [headerOp]
  have hlenk : (headerLen k).toNat = k.toNat / 2 ^ 8 % 2 ^ 8 := by simp [headerLen, Nat.shiftRight_eq_div_pow]
  rw [hop, hlen]
  refine ⟨?_, ?_, ?_⟩ <;> bv_omega

/-! ### Decoding whole and partial packets (R59) -/

theorem decode_partial {b0 b1 : Byte} {rest : List Byte} (h : rest.length < payloadLength (header b0 b1)) :
    decode (b0 :: b1 :: rest) = .incomplete := by
  rw [decode_cons_cons, if_pos h]

theorem decode_whole {b0 b1 : Byte} {rest : List Byte} {n : Nat} (hn : payloadLength (header b0 b1) = n)
    (h : n ≤ rest.length) :
    decode (b0 :: b1 :: rest) = classify (header b0 b1) (rest.take n) (rest.drop n) := by
  subst hn
  rw [decode_cons_cons, if_neg (Nat.not_lt.mpr h)]

/-- A byte of a word is the word's bit field (R33). -/
theorem wordByte_eq_extractLsb' (w : Word) (k : Nat) : wordByte w k = w.extractLsb' (8 * k) 8 :=
  BitVec.setWidth_ushiftRight_eq_extractLsb

/-- Eight payload bytes that are a word's bytes assemble to that word (R50). -/
theorem wordOfBytes_take_eq {w : Word} {bs : List Byte}
    (h : ∀ k < 8, bs[k]? = some (w.extractLsb' (8 * k) 8)) : wordOfBytes (bs.take 8) = w := by
  have htake : bs.take 8 = wordBytes w := by
    apply List.ext_getElem?
    intro k
    by_cases hk : k < 8
    · simp [wordBytes, hk, h k hk, wordByte_eq_extractLsb']
    · simp [wordBytes, hk]
  rw [htake, wordOfBytes_wordBytes]

/-! ### The step on an illegal and on a partial packet -/

theorem step_incomplete {s : State} (h : decode s.cmdPort = .incomplete) : step s = .next s := by
  simp only [step, h]

/-- The illegal command is consumed, answered, and writes no state of the block (R103). -/
theorem step_illegal {s : State} {why : Reject} {rest : List Byte} (h : decode s.cmdPort = .illegal why rest) :
    step s = .next ⟨s.block, rest, s.responses ++ [⟨.illegalCommand, 0⟩]⟩ := by
  simp only [step, h]
  rfl

/-- A whole packet that fits no row is consumed at the length of R47 and answered `ILLEGAL_COMMAND 0` (R53, R54). -/
theorem step_illegal_packet {s : State} {b0 b1 : Byte} {rest : List Byte} {n : Nat}
    (hport : s.cmdPort = b0 :: b1 :: rest)
    (hn : payloadLength (header b0 b1) = n) (hwhole : n ≤ rest.length)
    (hc : ¬(b0.extractLsb' 0 4 = 1 ∧ b0.extractLsb' 4 4 = 0))
    (hs : ¬(2 ≤ b0.extractLsb' 0 4 ∧ b0.extractLsb' 0 4 ≤ 7 ∧ b1 = 0)) :
    step s = .next ⟨s.block, rest.drop n, s.responses ++ [⟨.illegalCommand, 0⟩]⟩ := by
  rw [← headerOp_eq_low_bits b0 b1] at hc hs
  rw [← headerSid_eq_high_bits b0 b1] at hc
  rw [← headerLen_header b0 b1] at hs
  apply step_illegal
  rw [hport, decode_whole hn hwhole, classify_illegal_of_fields hc (by simpa using hs)]

/-! ### The obligations -/

/-- Settles O7: the header's mask tests choose the length (R47) and the row (R48) of a whole packet. -/
theorem decodeFollowsPacketProcedure : Obligations.DecodeFollowsPacketProcedure := by
  refine ⟨fun _ => decode_short, ?_, fun s t hd ht => ?_⟩
  · intro b0 b1 rest h sid n hh hsid hn
    obtain rfl : h = header b0 b1 := hh
    rw [← headerSid_eq_high_bits b0 b1] at hsid
    subst hsid
    have hlen : payloadLength (header b0 b1) = n := (payloadLength_eq_of_opMask b0 b1).trans hn.symm
    refine ⟨fun hshort => decode_partial (hlen ▸ hshort), fun hwhole => ?_⟩
    rw [decode_whole hlen hwhole]
    refine ⟨fun hk => ?compile, fun hk => ?reset, fun hk b hb => ?stepb, fun hk w hw => ?stepw, fun hk => ?haspend,
      fun hk => ?nextoff, fun hk => ?getlen, fun hc hs => ?illegal⟩
    case compile => rw [classify_eq, if_pos hk]
    case illegal => exact ⟨_, classify_illegal hc hs _ _⟩
    all_goals
      rw [classify_eq, if_neg (not_compile_of_sessionMask hk (by decide))]
      simp only [hk]
    case stepb =>
      obtain rfl : n = 1 := by rw [hn, opMask_of_sessionMask hk]; rfl
      obtain rfl : (rest.take 1).headD 0 = b := by simp [List.headD_eq_head?_getD, List.head?_eq_getElem?, hb]
      rfl
    case stepw =>
      obtain rfl : n = 8 := by rw [hn, opMask_of_sessionMask hk]; rfl
      obtain rfl := wordOfBytes_take_eq hw
      rfl
    all_goals rfl
  · rw [step_incomplete hd] at ht
    injection ht with ht
    exact ht.symm

/-- Settles O12: each clause's packet has the length R47 gives it and fits no row by its fields. -/
theorem illegalPacketsAreConsumedAndAnswered : Obligations.IllegalPacketsAreConsumedAndAnswered := by
  intro s b0 b1 rest op n hport hop hn
  subst hop
  refine ⟨fun hreserved => ?_, fun hcompile hsid hwhole => ?_, fun h2 h7 hlen hwhole => ?_⟩
  · have h0 : payloadLength (header b0 b1) = 0 := by
      rw [payloadLength_header, if_neg, if_neg, if_neg] <;> bv_omega
    exact step_illegal_packet hport h0 (Nat.zero_le _) (by bv_omega) (by bv_omega)
  · have hn : payloadLength (header b0 b1) = b1.toNat := by rw [payloadLength_header, if_pos hcompile]
    exact step_illegal_packet hport hn hwhole (fun h => hsid h.2) (by bv_omega)
  · have hn : payloadLength (header b0 b1) = n := by rw [payloadLength_header, if_neg (by bv_omega), hn]
    exact step_illegal_packet hport hn hwhole (by bv_omega) (fun h => hlen h.2.2)

/-- Settles O9: the status number fills the low half of byte 0, and what is above it is the zero extension. -/
theorem responsePacketCarriesStatusThenValue : Obligations.ResponsePacketCarriesStatusThenValue := by
  intro r
  refine ⟨_, _, _, rfl, ?_, ?_, rfl, rfl⟩
  · rw [BitVec.extractLsb'_setWidth_of_le (by decide), BitVec.extractLsb'_eq_self]
  · apply BitVec.eq_of_getLsbD_eq
    intro i hi
    have hhigh : r.st.code.getLsbD (4 + i) = false := BitVec.getLsbD_of_ge _ _ (Nat.le_add_right 4 i)
    rw [BitVec.getLsbD_extractLsb', BitVec.getLsbD_setWidth, hhigh, Bool.and_false, Bool.and_false]
    exact BitVec.getLsbD_zero.symm

end Sys2Proof.Proofs
end

section
/-! The compile family (40_compile.md): what a successful `COMPILE` leaves in the table, its constants and the contexts
(R64), and the packet it comes in, with its two outcomes (R65). -/

namespace Sys2Proof.Proofs

open Sys2Proof Sys2Proof.Machine Sys2Proof.Safety

/-! ### The two outcomes of `COMPILE` on a needle (R64, R65) -/

/-- Installing a needle of a legal length over a canonical table leaves the needle's compiled table (R64, R66). -/
theorem tableOf_install {b : Block} (h : b.mt.wf) {needle : List Byte} (h1 : 1 ≤ needle.length)
    (h2 : needle.length ≤ 57) : TableOf needle (b.install needle) where
  valid := Block.install_tv b needle
  atLeastOne := h1
  atMost57 := h2
  nlen := Block.nlen_install_toNat b h2
  ssm := Block.install_ssm b needle
  bsm := Block.install_bsm b needle
  sentinel := Block.mask_install_sentinel h needle
  masks v p hp := by simp [Block.getLsbD_mask_install h needle v hp]

/-- A refused `COMPILE` gives one response, the length received in its low byte, and changes nothing else (R57, R65). -/
theorem exec_compile_refused {needle : List Byte} (s : State) (h : ¬ (1 ≤ needle.length ∧ needle.length ≤ 57)) :
    exec (.compile needle) s = .next ⟨s.block, s.cmdPort,
      s.responses ++ [⟨.invalidPattern, (57 : BitVec 8) ++ BitVec.ofNat 8 needle.length⟩]⟩ :=
  exec_compile_illegal s h

/-! ### The packet of `COMPILE` (R47, R48, R59) -/

/-- The mask of the `COMPILE` row keeps packet byte 0 alone. -/
theorem header_and_compileMask (b0 b1 : Byte) : header b0 b1 &&& 0x00FF = header b0 0 := by
  calc header b0 b1 &&& 0x00FF = header b0 b1 &&& header (BitVec.allOnes 8) 0 := rfl
    _ = header (b0 &&& BitVec.allOnes 8) (b1 &&& 0) := BitVec.and_append
    _ = header b0 0 := congrArg₂ header BitVec.and_allOnes BitVec.and_zero

/-- A packet with byte 0 equal to 0x01 is a `COMPILE` of the `LEN` payload bytes that follow, whatever `LEN` is. -/
theorem decode_compile_packet {len : Byte} {payload : List Byte} (h : payload.length = len.toNat) (rest : List Byte) :
    decode (0x01 :: len :: (payload ++ rest)) = .command (.compile payload) rest := by
  have hlen : payloadLength (header 0x01 len) = payload.length := by
    rw [payloadLength_header, if_pos (by decide), h]
  have hrow : header 0x01 len &&& 0x00FF = 0x0001 := header_and_compileMask 0x01 len
  rw [decode_whole hlen (by simp), List.take_left, List.drop_left, classify_eq, if_pos hrow]

/-- The step on a decoded command executes it with its packet consumed (R59). -/
theorem step_command {s : State} {i : Instr} {rest : List Byte} (h : decode s.cmdPort = .command i rest) :
    step s = exec i (consumeTo rest s) := by
  simp only [step, h]

/-! ### The obligations -/

/-- Settles O22: the refusal writes only its response, and a legal needle's table is `TableOf` with every context
zeroed. -/
theorem compileInstallsTheNeedlesTable : Obligations.CompileInstallsTheNeedlesTable := by
  refine fun needle s hwf => ⟨fun _ hbad => exec_compile_refused s (by omega), fun hmin hmax => ?_⟩
  have ht := tableOf_install hwf hmin hmax
  exact ⟨_, exec_compile_legal s hmin hmax, ht.masks, ht.sentinel, ht.nlen, ht.ssm, ht.bsm, ht.valid,
    fun sid _ => prog_pend_of_session_zero (Block.session_install s.block needle sid), rfl, rfl⟩

/-- Settles O23: the packet decodes to a `COMPILE` of its payload, and `LEN` decides which outcome that has. -/
theorem compileRefusesBadLengths : Obligations.CompileRefusesBadLengths := by
  intro s len payload rest hport hlen
  have hstep : step s = exec (.compile payload) (consumeTo rest s) :=
    step_command (by rw [hport, decode_compile_packet hlen])
  rw [hstep]
  refine ⟨fun hbad => ?refused, fun hmin hmax => ?accepted⟩
  case refused =>
    have hval : BitVec.ofNat 8 payload.length = len := by rw [hlen, BitVec.ofNat_toNat, BitVec.setWidth_eq]
    have hrefused := exec_compile_refused (needle := payload) (consumeTo rest s) (by bv_omega)
    rw [hval] at hrefused
    exact ⟨57 ++ len, BitVec.extractLsb'_append_eq_left, BitVec.extractLsb'_append_eq_right, hrefused⟩
  case accepted =>
    exact ⟨_, exec_compile_legal _ (by bv_omega) (by bv_omega), rfl, rfl⟩

end Sys2Proof.Proofs
end

section
/-! The session family (41_session.md): `RESET` (R71) and `GETLEN` (R73), with the statuses a session command can answer
when its own rule does not fail. -/

namespace Sys2Proof.Proofs

open Sys2Proof Sys2Proof.Machine Sys2Proof.Safety

/-! ### Statuses of a session command (R104) -/

/-- A session command whose own rule always answers `OK` has only the statuses of the common checks besides. -/
theorem onlyCommonStatuses_of_ownRule_ok {i : Instr} {sid : SessionId} (hi : i.session? = some sid)
    (hok : ∀ s : State, ∃ val, (ownRule i s).responses = s.responses ++ [⟨.ok, val⟩]) : OnlyCommonStatuses i := by
  intro s
  obtain ⟨t, ht⟩ := exec_next i s
  have hc : sessionCommand sid s (ownRule i) = .next t := (exec_session hi s).symm.trans ht
  obtain ⟨-, rfl⟩ | ⟨-, -, rfl⟩ | ⟨-, -, rfl⟩ := sessionCommand_cases hc
  · exact ⟨_, _, ht, raise_responses s .badSession 0, .inr (.inr rfl)⟩
  · exact ⟨_, _, ht, raise_responses s .noTable 0, .inr (.inl rfl)⟩
  · obtain ⟨val, hval⟩ := hok s
    exact ⟨_, _, ht, hval, .inl rfl⟩

theorem onlyCommonStatuses_reset (sid : SessionId) : OnlyCommonStatuses (.reset sid) :=
  onlyCommonStatuses_of_ownRule_ok rfl fun s => ⟨0, ret_responses (s.setSession sid Session.zero) 0⟩

theorem onlyCommonStatuses_getlen (sid : SessionId) : OnlyCommonStatuses (.getlen sid) :=
  onlyCommonStatuses_of_ownRule_ok rfl fun s => ⟨_, ret_responses s (s.block.nlen.setWidth 16)⟩

/-! ### What the two commands do on a ready session -/

/-- `RESET` on a ready session puts the initial state in its context and answers `OK 0` (R71). -/
theorem exec_reset_ready {sid : SessionId} {s : State} (h : Ready sid s) :
    exec (.reset sid) s = .next (answered sid Session.zero ⟨.ok, 0⟩ s) :=
  exec_ready rfl h

/-- `GETLEN` on a ready session answers `NLEN`, zero-extended, and writes nothing (R73). -/
theorem exec_getlen_ready {sid : SessionId} {s : State} (h : Ready sid s) : exec (.getlen sid) s =
    .next ⟨s.block, s.cmdPort, s.responses ++ [⟨.ok, s.block.nlen.setWidth 16⟩]⟩ :=
  exec_ready rfl h

/-- No command that names a session changes the needle length (R22, R73). -/
theorem nlen_eq_of_session_ne_none {i : Instr} {s t : State} (hi : i.session? ≠ none) (ht : exec i s = .next t) :
    t.block.nlen = s.block.nlen := by
  obtain ⟨sid, hsid⟩ := Option.ne_none_iff_exists'.mp hi
  exact (exec_sessionFrame hsid ht).nlen

/-! ### The obligations -/

/-- Settles O25: `RESET` is one write of the initial state to its own context. -/
theorem resetCommandZeroesItsSession : Obligations.ResetCommandZeroesItsSession :=
  fun sid => ⟨rfl, onlyCommonStatuses_reset sid, fun s hready => ⟨_, exec_reset_ready hready,
    answered_prog_self sid _ _ s, answered_pend_self sid _ _ s, sessionFrame_answered sid _ _ s,
    answered_responses sid _ _ s⟩⟩

/-- Settles O26: the range is the invariant's, which zero extension keeps, and every session command is framed. -/
theorem getlenReturnsTheNeedleLength : Obligations.GetlenReturnsTheNeedleLength := by
  refine fun sid => ⟨rfl, onlyCommonStatuses_getlen sid, fun s hready => ⟨exec_getlen_ready hready, fun hinv => ?range,
    fun i t hi ht => nlen_eq_of_session_ne_none hi ht⟩⟩
  rw [BitVec.toNat_setWidth_of_le (by decide)]
  exact hinv.length hready.2

end Sys2Proof.Proofs
end

section
/-! The step family (42_step.md): `STEPB` (R76, R77) and `STEPW` (R79, R82, R84, R85) on a ready session, and what a
step reads of `PEND` (R88). -/

namespace Sys2Proof.Proofs

open Sys2Proof Sys2Proof.Machine Sys2Proof.Safety

/-! ### What the two commands do on a ready session -/

/-- The progress value `STEPB` writes (R76). -/
def stepbProg (sid : SessionId) (b : Byte) (s : State) : Word := advance (s.prog sid) (s.byteMask b)

/-- The progress value `STEPW` writes, the sentinel applied (R79). -/
def stepwProg (sid : SessionId) (w : Word) (s : State) : Word :=
  s.advanceBytes (s.prog sid) (wordBytes w) &&& s.mask sentIndex

/-- `STEPB` on a ready session writes `PROG` alone and answers whether no bit of `SSM` is set (R76, R77). -/
theorem exec_stepb_ready {sid : SessionId} {s : State} (h : Ready sid s) (b : Byte) :
    exec (.stepb sid b) s = .next (answered sid ⟨stepbProg sid b s, s.pend sid⟩
      ⟨.ok, if stepbProg sid b s &&& s.block.ssm = 0 then 1 else 0⟩ s) := by
  rw [exec_ready rfl h, ← boolVal_noCompletion]
  rfl

/-- `STEPW` on a ready session writes both its registers and answers whether no bit of `BSM` is set (R79, R84). -/
theorem exec_stepw_ready {sid : SessionId} {s : State} (h : Ready sid s) (w : Word) :
    exec (.stepw sid w) s = .next (answered sid
      ⟨stepwProg sid w s, unpack s.block.nlen (stepwProg sid w s &&& s.block.bsm)⟩
      ⟨.ok, if stepwProg sid w s &&& s.block.bsm = 0 then 1 else 0⟩ s) := by
  rw [exec_ready rfl h, ← boolVal_noCompletion]
  rfl

theorem onlyCommonStatuses_stepb (sid : SessionId) (b : Byte) : OnlyCommonStatuses (.stepb sid b) :=
  onlyCommonStatuses_of_ownRule_ok rfl fun _ => ⟨_, ret_responses _ _⟩

theorem onlyCommonStatuses_stepw (sid : SessionId) (w : Word) : OnlyCommonStatuses (.stepw sid w) :=
  onlyCommonStatuses_of_ownRule_ok rfl fun _ => ⟨_, ret_responses _ _⟩

/-! ### The new progress value (R76, R79) -/

/-- No bit comes in from below: bit 0 is the mask's (R76). -/
theorem getLsbD_stepbProg_zero (sid : SessionId) (b : Byte) (s : State) :
    (stepbProg sid b s).getLsbD 0 = (s.mask (byteIndex b)).getLsbD 0 := by
  rw [stepbProg, getLsbD_advance _ _ 0 (by decide)]
  rfl

theorem getLsbD_stepbProg_pos (sid : SessionId) (b : Byte) (s : State) {p : Nat} (hpos : 1 ≤ p) (hp : p < 64) :
    (stepbProg sid b s).getLsbD p = ((s.prog sid).getLsbD (p - 1) && (s.mask (byteIndex b)).getLsbD p) := by
  have hne : p ≠ 0 := by omega
  rw [stepbProg, getLsbD_advance _ _ p hp, decide_eq_false hne, Bool.false_or]
  rfl

/-- A sequence of temporaries that follows the update rule byte by byte ends in the value of `advanceBytes` (R79). -/
theorem advanceBytes_eq_of_temporaries (s : State) : ∀ (bs : List Byte) (P : Nat → Word),
    (∀ (i : Nat) (h : i < bs.length), P (i + 1) = advance (P i) (s.byteMask bs[i])) →
    s.advanceBytes (P 0) bs = P bs.length
  | [], _, _ => rfl
  | b :: bs, P, hP => by
    have hfirst : P 1 = advance (P 0) (s.byteMask b) := hP 0 (Nat.succ_pos _)
    have hrest : s.advanceBytes (P 1) bs = P (bs.length + 1) :=
      advanceBytes_eq_of_temporaries s bs (fun i => P (i + 1)) fun i hi => hP (i + 1) (Nat.succ_lt_succ hi)
    calc s.advanceBytes (P 0) (b :: bs)
      _ = s.advanceBytes (advance (P 0) (s.byteMask b)) bs := rfl
      _ = P (bs.length + 1) := by rw [← hfirst, hrest]

/-- A word's bytes are its bit fields in stream order (R33). -/
theorem wordBytes_eq_map_extractLsb' (w : Word) :
    wordBytes w = (List.range 8).map fun i => w.extractLsb' (8 * i) 8 :=
  List.map_congr_left fun i _ => wordByte_eq_extractLsb' w i

/-- R79's temporaries `P_0 .. P_8` over the bytes of a word end in the new progress value, the sentinel left to apply. -/
theorem stepwProg_eq_of_temporaries {sid : SessionId} {w : Word} {s : State} {P : Nat → Word}
    (hstart : P 0 = s.prog sid)
    (hnext : ∀ i < 8, P (i + 1) = ((P i <<< 1) ||| (1 : Word)) &&& s.mask (byteIndex (w.extractLsb' (8 * i) 8))) :
    stepwProg sid w s = P 8 &&& s.mask sentIndex := by
  have hP : s.advanceBytes (P 0) (wordBytes w) = P (wordBytes w).length := by
    refine advanceBytes_eq_of_temporaries s (wordBytes w) P fun i hi => ?_
    have hbyte : (wordBytes w)[i] = w.extractLsb' (8 * i) 8 := by simp [wordBytes_eq_map_extractLsb']
    rw [hbyte]
    exact hnext i (by simpa using hi)
  rw [stepwProg, ← hstart, hP, wordBytes_length]

/-! ### The window in `PEND` (R82) -/

/-- Sub-offset `j` stands at bit `j-1` of `PEND` and comes from bit `8-j` of the window (R82; log entry 13). -/
theorem getLsbD_unpack_subOffset (nlen : BitVec 6) (c : Word) {j : Nat} (hpos : 1 ≤ j) (hj : j ≤ 8) :
    (unpack nlen c).getLsbD (j - 1) = (c >>> (nlen.toNat - 1)).getLsbD (8 - j) := by
  have hlt : j - 1 < 8 := by omega
  have hbit : 7 - (j - 1) = 8 - j := by omega
  rw [getLsbD_unpack, decide_eq_true hlt, Bool.true_and, hbit, BitVec.getLsbD_ushiftRight]

/-- No bit stands above sub-offset 8 (R82). -/
theorem getLsbD_unpack_above (nlen : BitVec 6) (c : Word) {k : Nat} (hk : 8 ≤ k) :
    (unpack nlen c).getLsbD k = false := by
  rw [getLsbD_unpack, decide_eq_false (Nat.not_lt.mpr hk), Bool.false_and]

/-! ### What a write to `PEND` leaves alone (R88) -/

section SetPend
variable (s : State) (sid : SessionId) (x : Word)

@[simp] theorem prog_setPend_self : (s.setPend sid x).prog sid = s.prog sid := by simp [State.prog]

@[simp] theorem pend_setPend_self : (s.setPend sid x).pend sid = x := by simp [State.pend]

/-- `STEPB` advances `PROG` as on any other `PEND` (R88). -/
@[simp] theorem stepbProg_setPend (b : Byte) : stepbProg sid b (s.setPend sid x) = stepbProg sid b s := by
  rw [stepbProg, prog_setPend_self]
  rfl

/-- `STEPW` advances `PROG` as on any other `PEND` (R88). -/
@[simp] theorem stepwProg_setPend (w : Word) : stepwProg sid w (s.setPend sid x) = stepwProg sid w s := by
  rw [stepwProg, prog_setPend_self]
  rfl

end SetPend

theorem ready_setPend {sid : SessionId} {s : State} (h : Ready sid s) (x : Word) : Ready sid (s.setPend sid x) := h

/-- `STEPB` keeps whatever `PEND` holds; what it writes and answers besides is told by the state without it (R78, R88). -/
theorem exec_stepb_setPend {sid : SessionId} {s : State} (h : Ready sid s) (x : Word) (b : Byte) :
    exec (.stepb sid b) (s.setPend sid x) = .next (answered sid ⟨stepbProg sid b s, x⟩
      ⟨.ok, if stepbProg sid b s &&& s.block.ssm = 0 then 1 else 0⟩ (s.setPend sid x)) := by
  simpa using exec_stepb_ready (ready_setPend h x) b

/-- `STEPW` overwrites whatever `PEND` holds; what it writes and answers is told by the state without it (R85, R88). -/
theorem exec_stepw_setPend {sid : SessionId} {s : State} (h : Ready sid s) (x w : Word) :
    exec (.stepw sid w) (s.setPend sid x) = .next (answered sid
      ⟨stepwProg sid w s, unpack s.block.nlen (stepwProg sid w s &&& s.block.bsm)⟩
      ⟨.ok, if stepwProg sid w s &&& s.block.bsm = 0 then 1 else 0⟩ (s.setPend sid x)) := by
  simpa using exec_stepw_ready (ready_setPend h x) w

/-! ### The obligations -/

/-- Settles O27: the update rule read bit by bit, in a write to the session's own context that keeps its `PEND`. -/
theorem stepbAdvancesOneByte : Obligations.StepbAdvancesOneByte := by
  refine fun sid b => ⟨rfl, onlyCommonStatuses_stepb sid b, fun s hready =>
    ⟨_, exec_stepb_ready hready b, ?bitZero, fun p hpos hp => ?bitPos, answered_pend_self sid _ _ s,
      sessionFrame_answered sid _ _ s, ?response⟩⟩
  case bitZero => rw [answered_prog_self, getLsbD_stepbProg_zero]
  case bitPos => rw [answered_prog_self, getLsbD_stepbProg_pos sid b s hpos hp]
  case response => rw [answered_prog_self, answered_responses]

/-- Settles O28: R79's temporaries are the iterated update, and the layout of `PEND` is that of `unpack`. -/
theorem stepwAdvancesEightBytes : Obligations.StepwAdvancesEightBytes := by
  refine fun sid w => ⟨?packet, onlyCommonStatuses_stepw sid w, fun s P hready hstart hnext =>
    ⟨_, exec_stepw_ready hready w, ?prog, fun j hpos hj => ?pendWindow, fun k hk => ?pendAbove,
      sessionFrame_answered sid _ _ s, ?response⟩⟩
  case packet => rw [← wordBytes_eq_map_extractLsb']; rfl
  case prog => rw [answered_prog_self, stepwProg_eq_of_temporaries hstart hnext]
  case pendWindow => rw [answered_pend_self, answered_prog_self, getLsbD_unpack_subOffset _ _ hpos hj]
  case pendAbove => rw [answered_pend_self, getLsbD_unpack_above _ _ hk]
  case response => rw [answered_prog_self, answered_responses]

/-- Settles O31: of its session's registers a step reads `PROG` alone, which a write to `PEND` keeps. -/
theorem stepsDoNotReadPending : Obligations.StepsDoNotReadPending := by
  rintro sid s _ x hready rfl
  refine ⟨fun b => ⟨_, _, _, exec_stepb_ready hready b, exec_stepb_setPend hready x b, ?progB,
      answered_pend_self sid _ _ s, answered_pend_self sid _ _ _, rfl, answered_responses sid _ _ s,
      answered_responses sid _ _ _⟩,
    fun w => ⟨_, _, _, exec_stepw_ready hready w, exec_stepw_setPend hready x w, ?progW, ?pendW, rfl,
      answered_responses sid _ _ s, answered_responses sid _ _ _⟩⟩
  case progB => rw [answered_prog_self, answered_prog_self]
  case progW => rw [answered_prog_self, answered_prog_self]
  case pendW => rw [answered_pend_self, answered_pend_self]

end Sys2Proof.Proofs
end

section
/-! The drain family (43_drain.md): `HASPEND` (R89), `NEXTOFF` (R91, R92) and the idle and draining states of a session
(R93). -/

namespace Sys2Proof.Proofs

open Sys2Proof Sys2Proof.Machine Sys2Proof.Safety

/-! ### What the two commands do on a ready session -/

/-- `HASPEND` on a ready session answers whether anything is pending and writes nothing (R89). -/
theorem exec_haspend_ready {sid : SessionId} {s : State} (h : Ready sid s) : exec (.haspend sid) s =
    .next ⟨s.block, s.cmdPort, s.responses ++ [⟨.ok, if s.pend sid ≠ 0 then 1 else 0⟩]⟩ := by
  rw [exec_ready rfl h, ← boolVal_draining]
  rfl

theorem onlyCommonStatuses_haspend (sid : SessionId) : OnlyCommonStatuses (.haspend sid) :=
  onlyCommonStatuses_of_ownRule_ok rfl fun _ => ⟨_, ret_responses _ _⟩

/-- With nothing pending, the own rule of `NEXTOFF` is the refusal (R91). -/
theorem ownRule_nextoff_idle {sid : SessionId} {s : State} (h : s.pend sid = 0) :
    ownRule (.nextoff sid) s = raise .precondition 0 s :=
  if_pos h

/-- With something pending, the own rule of `NEXTOFF` writes `PEND` alone and answers the offset (R92). -/
theorem ownRule_nextoff_draining {sid : SessionId} {s : State} (h : s.pend sid ≠ 0) :
    ownRule (.nextoff sid) s = answered sid ⟨s.prog sid, clearOffset (s.pend sid) (nextOffset (s.pend sid))⟩
      ⟨.ok, BitVec.ofNat 16 (nextOffset (s.pend sid))⟩ s :=
  if_neg h

/-- `NEXTOFF` on a ready idle session answers `PRECONDITION 0` and writes nothing (R91). -/
theorem exec_nextoff_idle {sid : SessionId} {s : State} (hr : Ready sid s) (h : s.pend sid = 0) :
    exec (.nextoff sid) s = .next ⟨s.block, s.cmdPort, s.responses ++ [⟨.precondition, 0⟩]⟩ := by
  rw [exec_ready rfl hr, ownRule_nextoff_idle h]
  rfl

/-- `NEXTOFF` on a ready draining session clears the offset it answers (R92). -/
theorem exec_nextoff_draining {sid : SessionId} {s : State} (hr : Ready sid s) (h : s.pend sid ≠ 0) :
    exec (.nextoff sid) s = .next (answered sid
      ⟨s.prog sid, clearOffset (s.pend sid) (nextOffset (s.pend sid))⟩
      ⟨.ok, BitVec.ofNat 16 (nextOffset (s.pend sid))⟩ s) := by
  rw [exec_ready rfl hr, ownRule_nextoff_draining h]

/-- `NEXTOFF` answers `PRECONDITION` or one of the common statuses, whatever the state (R92). -/
theorem nextoff_statuses (sid : SessionId) (s : State) :
    ∃ t r, exec (.nextoff sid) s = .next t ∧ t.responses = s.responses ++ [r] ∧
      (r.st = .ok ∨ r.st = .noTable ∨ r.st = .badSession ∨ r.st = .precondition) := by
  obtain ⟨t, ht⟩ := exec_next (.nextoff sid) s
  have hc : sessionCommand sid s (ownRule (.nextoff sid)) = .next t := (exec_session rfl s).symm.trans ht
  obtain ⟨-, rfl⟩ | ⟨-, -, rfl⟩ | ⟨-, -, rfl⟩ := sessionCommand_cases hc
  · exact ⟨_, _, ht, raise_responses s .badSession 0, .inr (.inr (.inl rfl))⟩
  · exact ⟨_, _, ht, raise_responses s .noTable 0, .inr (.inl rfl)⟩
  · by_cases hp : s.pend sid = 0
    · rw [ownRule_nextoff_idle hp] at ht
      exact ⟨_, _, ht, raise_responses s .precondition 0, .inr (.inr (.inr rfl))⟩
    · rw [ownRule_nextoff_draining hp] at ht
      exact ⟨_, _, ht, answered_responses sid _ _ s, .inl rfl⟩

/-! ### The bits of `PEND` (R15, R92) -/

theorem ne_zero_of_getLsbD {a : Word} {p : Nat} (h : a.getLsbD p = true) : a ≠ 0 := by
  rintro rfl
  simp at h

/-- A register of at most 0xFF has its set bits at 0..7 (R27). -/
theorem lt_eight_of_getLsbD_of_le {a : Word} (ha : a ≤ 0xFF) {p : Nat} (h : a.getLsbD p = true) : p < 8 := by
  have hlow : 2 ^ p ≤ a.toNat := Nat.ge_two_pow_of_testBit h
  have hhigh : a.toNat < 2 ^ 8 := Nat.lt_succ_of_le ha
  exact (Nat.pow_lt_pow_iff_right (by decide)).mp (hlow.trans_lt hhigh)

/-- With two bits set, one is left when an offset is cleared. -/
theorem clearOffset_ne_zero {a : Word} {j p q : Nat} (hj : 1 ≤ j) (hpq : p ≠ q) (hp : a.getLsbD p = true)
    (hq : a.getLsbD q = true) : clearOffset a j ≠ 0 := by
  by_cases h : p = j - 1
  · have hne : q ≠ j - 1 := by omega
    exact ne_zero_of_getLsbD (p := q) (by rw [getLsbD_clearOffset a hj, hq, decide_eq_true hne]; rfl)
  · exact ne_zero_of_getLsbD (p := p) (by rw [getLsbD_clearOffset a hj, hp, decide_eq_true h]; rfl)

/-- With one bit set, that bit is the offset, and none is left when it is cleared. -/
theorem clearOffset_nextOffset_eq_zero {a : Word} {p : Nat} (h : ∀ q : Nat, a.getLsbD q = true ↔ q = p) :
    clearOffset a (nextOffset a) = 0 := by
  obtain ⟨hpos, -, hbit, -⟩ := nextOffset_spec (ne_zero_of_getLsbD ((h p).mpr rfl))
  apply BitVec.eq_of_getLsbD_eq
  intro q _
  rw [getLsbD_clearOffset a hpos, (h _).mp hbit]
  by_cases hq : q = p
  · simp [hq]
  · simp [hq, mt (h q).mp hq]

/-! ### When `STEPW` leaves nothing pending (R82, R84) -/

/-- Eight bits from bit `m` up: the batch success mask for `m = NLEN-1` (R18). -/
theorem getLsbD_batchMask (m : Nat) {p : Nat} (hp : p < 64) :
    ((0xFF : Word) <<< m).getLsbD p = decide (m ≤ p ∧ p < m + 8) := by
  have hff : (0xFF : Word) = (BitVec.allOnes 8).setWidth 64 := rfl
  rw [hff, BitVec.getLsbD_shiftLeft, BitVec.getLsbD_setWidth, BitVec.getLsbD_allOnes]
  by_cases hm : m ≤ p
  · have hlow : ¬ p < m := by omega
    have hsub : p - m < 64 := by omega
    simp [hp, hm, hlow, hsub, Nat.sub_lt_iff_lt_add hm, Nat.add_comm]
  · have hlow : p < m := by omega
    simp [hm, hlow]

/-- Every bit of the window stands in the unpacked value (R82). -/
theorem getLsbD_of_window (nlen : BitVec 6) (c : Word) {p : Nat} (hlow : nlen.toNat - 1 ≤ p)
    (hhigh : p < nlen.toNat - 1 + 8) : c.getLsbD p = (unpack nlen c).getLsbD (nlen.toNat - 1 + 7 - p) := by
  have hlt : nlen.toNat - 1 + 7 - p < 8 := by omega
  have hpos : nlen.toNat - 1 + (7 - (nlen.toNat - 1 + 7 - p)) = p := by omega
  rw [getLsbD_unpack, decide_eq_true hlt, Bool.true_and, hpos]

@[simp] theorem unpack_zero (nlen : BitVec 6) : unpack nlen 0 = 0 := by
  apply BitVec.eq_of_getLsbD_eq
  intro k _
  rw [getLsbD_unpack]
  simp

/-- The window holds every bit of the batch success mask, so nothing is pending exactly when no bit of the mask is set
in the progress value (R82, R84). -/
theorem unpack_eq_zero_iff {b : Block} (hinv : BlockInv b) (htv : b.tv = true) (t : Word) :
    unpack b.nlen (t &&& b.bsm) = 0 ↔ t &&& b.bsm = 0 := by
  refine ⟨fun h => BitVec.eq_of_getLsbD_eq fun p hp => ?_, fun h => by rw [h, unpack_zero]⟩
  by_cases hw : b.nlen.toNat - 1 ≤ p ∧ p < b.nlen.toNat - 1 + 8
  · obtain ⟨hlow, hhigh⟩ := hw
    rw [getLsbD_of_window b.nlen _ hlow hhigh, h]
    simp
  · rw [BitVec.getLsbD_and, hinv.bsm htv, getLsbD_batchMask _ hp, decide_eq_false hw]
    simp

/-! ### The states of R93 after a command -/

section StateOfSession
variable (sid : SessionId) (x : Session) (r : Response) (s : State)

@[simp] theorem draining_answered : (answered sid x r s).draining sid = true ↔ x.pend ≠ 0 := by
  rw [draining_iff, answered_pend_self]

@[simp] theorem idle_answered : (answered sid x r s).idle sid = true ↔ x.pend = 0 := by
  rw [idle_iff, answered_pend_self]

end StateOfSession

/-- `STEPB` keeps the state of its session (R78, R93). -/
theorem stepb_keeps_draining {sid : SessionId} {s : State} (h : Ready sid s) (b : Byte) :
    ∃ t, exec (.stepb sid b) s = .next t ∧ t.draining sid = s.draining sid :=
  ⟨_, exec_stepb_ready h b, by simp [State.draining]⟩

/-- `STEPW` answers `true` and leaves its session idle, or answers `false` and leaves it draining (R84, R93). -/
theorem stepw_idle_or_draining {sid : SessionId} {s : State} (hinv : BlockInv s.block) (h : Ready sid s) (w : Word) :
    ∃ t, exec (.stepw sid w) s = .next t ∧
      ((t.responses = s.responses ++ [⟨.ok, 1⟩] ∧ t.idle sid = true) ∨
       (t.responses = s.responses ++ [⟨.ok, 0⟩] ∧ t.draining sid = true)) := by
  have hpend := unpack_eq_zero_iff hinv h.2 (stepwProg sid w s)
  refine ⟨_, exec_stepw_ready h w, ?_⟩
  by_cases hc : stepwProg sid w s &&& s.block.bsm = 0
  · exact .inl ⟨by rw [answered_responses, if_pos hc], (idle_answered ..).mpr (hpend.mpr hc)⟩
  · exact .inr ⟨by rw [answered_responses, if_neg hc], (draining_answered ..).mpr (mt hpend.mp hc)⟩

/-- `NEXTOFF` with several bits pending leaves its session draining (R93). -/
theorem nextoff_draining_of_two_bits {sid : SessionId} {s : State} (h : Ready sid s) {p q : Nat} (hpq : p ≠ q)
    (hp : (s.pend sid).getLsbD p = true) (hq : (s.pend sid).getLsbD q = true) :
    ∃ t, exec (.nextoff sid) s = .next t ∧ t.draining sid = true := by
  have hne : s.pend sid ≠ 0 := ne_zero_of_getLsbD hp
  obtain ⟨hpos, -⟩ := nextOffset_spec hne
  exact ⟨_, exec_nextoff_draining h hne, (draining_answered ..).mpr (clearOffset_ne_zero hpos hpq hp hq)⟩

/-- `NEXTOFF` with one bit pending leaves its session idle (R93). -/
theorem nextoff_idle_of_one_bit {sid : SessionId} {s : State} (h : Ready sid s) {p : Nat}
    (hp : ∀ q : Nat, (s.pend sid).getLsbD q = true ↔ q = p) :
    ∃ t, exec (.nextoff sid) s = .next t ∧ t.idle sid = true :=
  ⟨_, exec_nextoff_draining h (ne_zero_of_getLsbD ((hp p).mpr rfl)),
    (idle_answered ..).mpr (clearOffset_nextOffset_eq_zero hp)⟩

/-- A successful `COMPILE` leaves every session idle (R68, R93). -/
theorem compile_idle {needle : List Byte} (s : State) (hmin : 1 ≤ needle.length) (hmax : needle.length ≤ 57)
    (sid : SessionId) : ∃ t, exec (.compile needle) s = .next t ∧ t.idle sid = true := by
  refine ⟨_, exec_compile_legal s hmin hmax, (idle_iff _ _).mpr ?_⟩
  exact (prog_pend_of_session_zero (Block.session_install s.block needle sid)).2

/-! ### The obligations -/

/-- Settles O34. -/
theorem haspendTellsWhetherDraining : Obligations.HaspendTellsWhetherDraining :=
  fun sid => ⟨rfl, onlyCommonStatuses_haspend sid, fun _ hready => exec_haspend_ready hready⟩

/-- Settles O36. -/
theorem nextoffOnIdleSessionIsRefused : Obligations.NextoffOnIdleSessionIsRefused :=
  fun _ _ hready hidle => exec_nextoff_idle hready hidle

/-- Settles O35: `nextOffset` is one more than the number of the highest set bit, and the command is one write of `PEND`
to its own context. -/
theorem nextoffReportsAndClearsTheHighestBit : Obligations.NextoffReportsAndClearsTheHighestBit := by
  refine fun sid => ⟨rfl, nextoff_statuses sid, fun s hready hidle => exec_nextoff_idle hready hidle,
    fun s hready hne => ?_⟩
  obtain ⟨hpos, hle, hbit, habove⟩ := nextOffset_spec hne
  refine ⟨_, nextOffset (s.pend sid), exec_nextoff_draining hready hne, hpos, hle, fun hbyte => ?atMostEight, hbit,
    fun p hp => ?highest, fun p => ?cleared, answered_prog_self sid _ _ s, sessionFrame_answered sid _ _ s,
    answered_responses sid _ _ s⟩
  case atMostEight =>
    have := lt_eight_of_getLsbD_of_le hbyte hbit
    omega
  case highest =>
    rcases Nat.lt_or_ge p 64 with hlt | hge
    · exact habove p hp hlt
    · exact BitVec.getLsbD_of_ge _ p hge
  case cleared => rw [answered_pend_self, getLsbD_clearOffset _ hpos]

/-- Settles O38: one lemma per row of R93's table. -/
theorem sessionStateMachineOfRule93 : Obligations.SessionStateMachineOfRule93 := by
  intro sid s hinv hready
  refine ⟨draining_iff s sid, idle_iff s sid, stepb_keeps_draining hready, stepw_idle_or_draining hinv hready,
    fun _ _ => nextoff_draining_of_two_bits hready, fun _ => nextoff_idle_of_one_bit hready, fun hidle => ?nextoffIdle,
    ⟨_, exec_haspend_ready hready, rfl⟩, ⟨_, exec_getlen_ready hready, rfl⟩,
    ⟨_, exec_reset_ready hready, (idle_answered ..).mpr rfl⟩, fun _ hmin hmax => compile_idle s hmin hmax sid⟩
  case nextoffIdle => exact ⟨_, exec_nextoff_idle hready ((idle_iff s sid).mp hidle), hidle, rfl⟩

end Sys2Proof.Proofs
end

section
/-! The exceptions family (60_exceptions.md): the common checks (R101, R102, R104), how a command can fail behind them
(R107), and that an error writes no state (R100). -/

namespace Sys2Proof.Proofs

open Sys2Proof Sys2Proof.Machine Sys2Proof.Safety

/-! ### How a command can end (R98, R99, R107) -/

/-- Behind the common checks a session command answers `OK`, or it is `NEXTOFF` and is refused with nothing written
(R99, R107). -/
theorem ownRule_ok_or_precondition {i : Instr} {sid : SessionId} (hi : i.session? = some sid) (s : State) :
    (∃ val, (ownRule i s).responses = s.responses ++ [⟨.ok, val⟩]) ∨
    (i = .nextoff sid ∧ ownRule i s = raise .precondition 0 s) := by
  cases i with
  | compile needle => cases hi
  | reset sid' => exact .inl ⟨_, ret_responses _ _⟩
  | stepb sid' b => exact .inl ⟨_, ret_responses _ _⟩
  | stepw sid' w => exact .inl ⟨_, ret_responses _ _⟩
  | haspend sid' => exact .inl ⟨_, ret_responses _ _⟩
  | getlen sid' => exact .inl ⟨_, ret_responses _ _⟩
  | nextoff sid' =>
    cases hi
    by_cases hp : s.pend sid = 0
    · exact .inr ⟨rfl, ownRule_nextoff_idle hp⟩
    · exact .inl ⟨_, by rw [ownRule_nextoff_draining hp, answered_responses]⟩

/-- `COMPILE` answers `OK`, or it is refused with nothing written (R98, R107). -/
theorem exec_compile_ok_or_invalidPattern (needle : List Byte) (s : State) :
    (∃ t, exec (.compile needle) s = .next t ∧ t.responses = s.responses ++ [⟨.ok, 0⟩]) ∨
    ∃ val, exec (.compile needle) s = .next (raise .invalidPattern val s) := by
  by_cases hlegal : 1 ≤ needle.length ∧ needle.length ≤ 57
  · obtain ⟨hmin, hmax⟩ := hlegal
    exact .inl ⟨_, exec_compile_legal s hmin hmax, ret_responses _ 0⟩
  · exact .inr ⟨_, exec_compile_illegal s hlegal⟩

/-! ### Errors write no state (R100) -/

/-- A command answers `OK`, or it leaves the block as it was (R100). -/
theorem exec_ok_or_block_eq {i : Instr} {s t : State} (ht : exec i s = .next t) :
    (∃ val, t.responses = s.responses ++ [⟨.ok, val⟩]) ∨ t.block = s.block := by
  cases hi : i.session? with
  | some sid =>
    obtain ⟨-, rfl⟩ | ⟨-, -, rfl⟩ | ⟨-, -, rfl⟩ := sessionCommand_cases ((exec_session hi s).symm.trans ht)
    · exact .inr (raise_block s .badSession 0)
    · exact .inr (raise_block s .noTable 0)
    · refine (ownRule_ok_or_precondition hi s).imp_right fun ⟨_, hrefused⟩ => ?_
      rw [hrefused, raise_block]
  | none =>
    obtain ⟨needle, rfl⟩ := eq_compile_of_session_none hi
    obtain ⟨u, hu, hok⟩ | ⟨val, hrefused⟩ := exec_compile_ok_or_invalidPattern needle s
    · obtain rfl : u = t := by rw [hu] at ht; injection ht
      exact .inl ⟨0, hok⟩
    · obtain rfl : raise .invalidPattern val s = t := by rw [hrefused] at ht; injection ht
      exact .inr (raise_block s .invalidPattern val)

/-- A step gives one response, `OK`, or it leaves the block as it was (R100). -/
theorem step_ok_or_block_eq {s t : State} (ht : step s = .next t) :
    (∃ val, t.responses = s.responses ++ [⟨.ok, val⟩]) ∨ t.block = s.block := by
  obtain ⟨i, rest, -, he⟩ | ⟨why, rest, -, rfl⟩ | ⟨-, rfl⟩ := step_cases ht
  · exact exec_ok_or_block_eq (s := consumeTo rest s) he
  · exact .inr (illegalCommand_block (consumeTo rest s))
  · exact .inr rfl

/-! ### The obligations -/

/-- Settles O14: a step that does not keep the block answers `OK`, which its one response here is not. -/
theorem errorsWriteNoState : Obligations.ErrorsWriteNoState := by
  intro s t r ht hr hne
  refine (step_ok_or_block_eq ht).resolve_left fun ⟨val, hok⟩ => hne ?_
  have hsame : [r] = [⟨.ok, val⟩] := List.append_cancel_left (hr.symm.trans hok)
  rw [List.singleton_inj.mp hsame]

/-- Settles O17: every session command is its own rule behind the checks, taken in the order of R104. -/
theorem sessionThenTableAreChecked : Obligations.SessionThenTableAreChecked := by
  refine fun i sid s hi => ⟨fun hbad => ?badSession, fun hpresent htv => ?noTable⟩
  case badSession =>
    rw [exec_session hi, sessionCommand_bad _ hbad]
    rfl
  case noTable =>
    rw [exec_session hi, sessionCommand_noTable _ hpresent htv]
    rfl

/-- Settles O18: a ready session command is its own rule, and `COMPILE` has two outcomes. -/
theorem readyCommandsFailOnlyInTheirOwnWay : Obligations.ReadyCommandsFailOnlyInTheirOwnWay := by
  refine ⟨fun i sid s hi hready => ?session, fun needle s => ?compile⟩
  case session =>
    obtain ⟨val, hok⟩ | ⟨hnextoff, hrefused⟩ := ownRule_ok_or_precondition hi s
    · exact ⟨_, val, exec_ready hi hready, .inl hok⟩
    · exact ⟨_, 0, exec_ready hi hready, .inr ⟨hnextoff, by rw [hrefused, raise_responses]⟩⟩
  case compile =>
    obtain ⟨t, ht, hok⟩ | ⟨val, hrefused⟩ := exec_compile_ok_or_invalidPattern needle s
    · exact ⟨t, 0, ht, .inl hok⟩
    · exact ⟨_, val, hrefused, .inr (raise_responses s .invalidPattern val)⟩

end Sys2Proof.Proofs
end

section
/-! The other statements, first part: what every command and every step keeps (10_state.md section 4, R20, R27), that
every whole packet gets one response (R45, R106), and which values a response carries (R57, R97, R116). -/

namespace Sys2Proof.Proofs

open Sys2Proof Sys2Proof.Machine Sys2Proof.Safety

/-! ### Registers of at most 0xFF (R27.1) -/

theorem unpack_le (nlen : BitVec 6) (c : Word) : unpack nlen c ≤ 0xFF := by
  unfold unpack
  bv_omega

theorem clearOffset_le (a : Word) (j : Nat) : clearOffset a j ≤ a := by
  rw [BitVec.le_def, clearOffset, BitVec.toNat_and]
  exact Nat.and_le_left

/-! ### The invariant (R27) -/

theorem blockInv_powerOn : BlockInv Block.powerOn where
  memory := Memory.wf_nil
  pendByte sid := by simp [Session.zero]
  length h := nomatch h
  ssm h := nomatch h
  bsm h := nomatch h
  sentinel h := nomatch h
  permissiveBits h := nomatch h
  oneByte h := nomatch h
  noTable _ := Block.session_powerOn
  absent sid _ := Block.session_powerOn sid

/-- The own rule of a command writes a `PEND` of at most 0xFF where it finds one, and no register but its session's
(R16, R27.1). -/
theorem ownRule_writes_pendByte {i : Instr} {sid : SessionId} (hi : i.session? = some sid) {s : State}
    (hp : s.pend sid ≤ 0xFF) : ∃ x, (ownRule i s).block = s.block.setSession sid x ∧ x.pend ≤ 0xFF := by
  have hkept : s.block = s.block.setSession sid (s.block.session sid) := (Block.setSession_session _ _).symm
  cases i with
  | compile needle => cases hi
  | reset sid' => cases hi; exact ⟨Session.zero, rfl, Nat.zero_le _⟩
  | stepb sid' b => cases hi; exact ⟨⟨_, s.pend sid⟩, rfl, hp⟩
  | stepw sid' w => cases hi; exact ⟨⟨_, _⟩, rfl, unpack_le _ _⟩
  | haspend sid' => cases hi; exact ⟨_, hkept, hp⟩
  | getlen sid' => cases hi; exact ⟨_, hkept, hp⟩
  | nextoff sid' =>
    cases hi
    by_cases hidle : s.pend sid = 0
    · exact ⟨_, by rw [ownRule_nextoff_idle hidle]; exact hkept, hp⟩
    · exact ⟨_, by rw [ownRule_nextoff_draining hidle, answered_block], BitVec.le_trans (clearOffset_le _ _) hp⟩

/-- Every command keeps the invariant: `COMPILE` establishes it anew, a session command writes a byte-wide `PEND` to an
existing session under a table, and a refusal writes nothing. -/
theorem exec_blockInv {i : Instr} {s t : State} (hinv : BlockInv s.block) (ht : exec i s = .next t) :
    BlockInv t.block := by
  cases hi : i.session? with
  | some sid =>
    obtain ⟨-, rfl⟩ | ⟨-, -, rfl⟩ | ⟨hp, htv, rfl⟩ := sessionCommand_cases ((exec_session hi s).symm.trans ht)
    · exact hinv
    · exact hinv
    · obtain ⟨x, hblock, hx⟩ := ownRule_writes_pendByte hi (hinv.pendByte sid)
      rw [hblock]
      exact blockInv_setSession hinv hp htv hx
  | none =>
    obtain ⟨needle, rfl⟩ := eq_compile_of_session_none hi
    by_cases hlegal : 1 ≤ needle.length ∧ needle.length ≤ 57
    · obtain ⟨hmin, hmax⟩ := hlegal
      obtain rfl := Host.Outcome.next.inj ((exec_compile_legal s hmin hmax).symm.trans ht)
      exact blockInv_install hinv.memory hmin hmax
    · obtain rfl := Host.Outcome.next.inj ((exec_compile_illegal s hlegal).symm.trans ht)
      exact hinv

/-- Settles O3: of everything a step can do, only a command writes the block. -/
theorem everyStepKeepsBlockInvariant : Obligations.EveryStepKeepsBlockInvariant := by
  intro s t hinv ht
  obtain ⟨i, rest, -, he⟩ | ⟨why, rest, -, rfl⟩ | ⟨-, rfl⟩ := step_cases ht
  · exact exec_blockInv (s := consumeTo rest s) hinv he
  · exact hinv
  · exact hinv

/-- Settles O2. -/
theorem powerOnResetMeetsBlockInvariant : Obligations.PowerOnResetMeetsBlockInvariant := blockInv_powerOn

/-! ### One response for each command (R45, R106) -/

theorem exec_one_response {i : Instr} {s t : State} (ht : exec i s = .next t) :
    ∃ r, t.responses = s.responses ++ [r] := by
  cases hi : i.session? with
  | some sid =>
    obtain ⟨x, r, hs, -⟩ := exec_of_sameView hi (SameView.refl sid s)
    obtain rfl := Host.Outcome.next.inj (hs.symm.trans ht)
    exact ⟨r, answered_responses sid x r s⟩
  | none =>
    obtain ⟨needle, rfl⟩ := eq_compile_of_session_none hi
    obtain ⟨u, hu, hok⟩ | ⟨val, hrefused⟩ := exec_compile_ok_or_invalidPattern needle s
    · obtain rfl := Host.Outcome.next.inj (hu.symm.trans ht)
      exact ⟨_, hok⟩
    · obtain rfl := Host.Outcome.next.inj (hrefused.symm.trans ht)
      exact ⟨_, raise_responses s .invalidPattern val⟩

/-- Settles O10. -/
theorem stepRunsTheDecodedCommand : Obligations.StepRunsTheDecodedCommand :=
  fun _ _ _ hd => step_command hd

/-- Settles O13: one case for each answer of the decoder. -/
theorem everyWholePacketGetsOneResponse : Obligations.EveryWholePacketGetsOneResponse := by
  intro s
  cases hd : decode s.cmdPort with
  | command i rest =>
    obtain ⟨t, ht⟩ := exec_next i (consumeTo rest s)
    exact ⟨t, (step_command hd).trans ht, nofun, fun _ => exec_one_response (s := consumeTo rest s) ht⟩
  | illegal why rest => exact ⟨_, step_illegal hd, nofun, fun _ => ⟨_, rfl⟩⟩
  | incomplete => exact ⟨s, step_incomplete hd, fun _ => rfl, fun h => absurd rfl h⟩

/-! ### The table-valid flag (R20) -/

/-- A command leaves `TV` set exactly when it was set or the command is a `COMPILE` of a legal length (R20). -/
theorem exec_tv_iff {i : Instr} {s t : State} (ht : exec i s = .next t) :
    t.block.tv = true ↔
      s.block.tv = true ∨ ∃ needle, i = .compile needle ∧ 1 ≤ needle.length ∧ needle.length ≤ 57 := by
  cases hi : i.session? with
  | some sid =>
    have hne : ∀ needle, i ≠ .compile needle := by rintro needle rfl; cases hi
    simp [(exec_sessionFrame hi ht).tv, hne]
  | none =>
    obtain ⟨needle, rfl⟩ := eq_compile_of_session_none hi
    by_cases hlegal : 1 ≤ needle.length ∧ needle.length ≤ 57
    · obtain rfl := Host.Outcome.next.inj ((exec_compile_legal s hlegal.1 hlegal.2).symm.trans ht)
      simp [hlegal]
    · obtain rfl := Host.Outcome.next.inj ((exec_compile_illegal s hlegal).symm.trans ht)
      simp [hlegal]

/-- Settles O16: the command of the step is the decoded one, and without a command the block is as it was. -/
theorem tableValidFlagSetExactlyByCompile : Obligations.TableValidFlagSetExactlyByCompile := by
  intro s t ht
  obtain ⟨i, rest, hd, he⟩ | ⟨why, rest, hd, rfl⟩ | ⟨hd, rfl⟩ := step_cases ht
  · rw [exec_tv_iff he, hd]
    simp
  · simp [hd]
  · simp [hd]

/-! ### Statuses and values of a response (R57, R97) -/

/-- A session command answers by the common checks, or its session is ready. -/
theorem session_response_cases {i : Instr} {sid : SessionId} (hi : i.session? = some sid) {s t : State} {r : Response}
    (ht : exec i s = .next t) (hr : t.responses = s.responses ++ [r]) :
    ((r.st = .noTable ∨ r.st = .badSession) ∧ i.session? ≠ none ∧ r.val = 0) ∨ Ready sid s := by
  have hsome : i.session? ≠ none := by rw [hi]; exact Option.some_ne_none sid
  obtain ⟨-, rfl⟩ | ⟨-, -, rfl⟩ | ⟨hp, htv, -⟩ := sessionCommand_cases ((exec_session hi s).symm.trans ht)
  · obtain rfl := List.singleton_inj.mp (List.append_cancel_left hr)
    exact .inl ⟨.inr rfl, hsome, rfl⟩
  · obtain rfl := List.singleton_inj.mp (List.append_cancel_left hr)
    exact .inl ⟨.inl rfl, hsome, rfl⟩
  · exact .inr ⟨hp, htv⟩

/-- The one response of a command is the one its rule tells. -/
theorem response_eq {i : Instr} {s t u : State} {r q : Response} (hu : exec i s = .next u)
    (hq : u.responses = s.responses ++ [q]) (ht : exec i s = .next t) (hr : t.responses = s.responses ++ [r]) :
    r = q := by
  obtain rfl := Host.Outcome.next.inj (hu.symm.trans ht)
  exact List.singleton_inj.mp (List.append_cancel_left (hr.symm.trans hq))

/-- The offset `NEXTOFF` reports for a `PEND` of at most 0xFF, as the 16 bits of `VAL` (R57, R92). -/
theorem nextOffset_val {a : Word} (ha : a ≤ 0xFF) (hne : a ≠ 0) :
    1 ≤ (BitVec.ofNat 16 (nextOffset a)).toNat ∧ (BitVec.ofNat 16 (nextOffset a)).toNat ≤ 8 := by
  obtain ⟨hpos, -, hbit, -⟩ := nextOffset_spec hne
  have hlt := lt_eight_of_getLsbD_of_le ha hbit
  rw [BitVec.toNat_ofNat, Nat.mod_eq_of_lt (by omega)]
  omega

/-- `COMPILE` answers `OK 0`, or `INVALID_PATTERN` with the maximum and the length received (R57, R65). -/
theorem compile_response {needle : List Byte} (hwf : needle.length ≤ 255) {s t : State} {r : Response}
    (ht : exec (.compile needle) s = .next t) (hr : t.responses = s.responses ++ [r]) :
    (r.st = .ok ∧ r.val = 0) ∨
      (r.st = .invalidPattern ∧ r.val.extractLsb' 8 8 = 57 ∧ (r.val.extractLsb' 0 8).toNat = needle.length) := by
  by_cases hlegal : 1 ≤ needle.length ∧ needle.length ≤ 57
  · obtain rfl := response_eq (exec_compile_legal s hlegal.1 hlegal.2) (ret_responses _ _) ht hr
    exact .inl ⟨rfl, rfl⟩
  · obtain rfl := response_eq (exec_compile_refused s hlegal) rfl ht hr
    refine .inr ⟨rfl, BitVec.extractLsb'_append_eq_left, ?_⟩
    rw [BitVec.extractLsb'_append_eq_right, BitVec.toNat_ofNat, Nat.mod_eq_of_lt (by omega)]

/-- Settles O19: a response is one of the common checks, or the session is ready and the command's own rule tells it. -/
theorem responseValuesFollowTheTable : Obligations.ResponseValuesFollowTheTable := by
  intro i s t r hwf hinv ht hr
  cases i with
  | compile needle => exact .inr (compile_response (of_decide_eq_true hwf) ht hr)
  | reset sid =>
    refine (session_response_cases rfl ht hr).imp_right fun hready => ?_
    obtain rfl := response_eq (exec_reset_ready hready) (answered_responses ..) ht hr
    exact ⟨rfl, rfl⟩
  | stepb sid b =>
    refine (session_response_cases rfl ht hr).imp_right fun hready => ?_
    obtain rfl := response_eq (exec_stepb_ready hready b) (answered_responses ..) ht hr
    exact ⟨rfl, (ite_eq_or_eq _ _ _).symm⟩
  | stepw sid w =>
    refine (session_response_cases rfl ht hr).imp_right fun hready => ?_
    obtain rfl := response_eq (exec_stepw_ready hready w) (answered_responses ..) ht hr
    exact ⟨rfl, (ite_eq_or_eq _ _ _).symm⟩
  | haspend sid =>
    refine (session_response_cases rfl ht hr).imp_right fun hready => ?_
    obtain rfl := response_eq (exec_haspend_ready hready) rfl ht hr
    exact ⟨rfl, (ite_eq_or_eq _ _ _).symm⟩
  | nextoff sid =>
    refine (session_response_cases rfl ht hr).imp_right fun hready => ?_
    by_cases hidle : s.pend sid = 0
    · obtain rfl := response_eq (exec_nextoff_idle hready hidle) rfl ht hr
      exact .inr ⟨rfl, rfl⟩
    · obtain rfl := response_eq (exec_nextoff_draining hready hidle) (answered_responses ..) ht hr
      exact .inl ⟨rfl, nextOffset_val (hinv.pendByte sid) hidle⟩
  | getlen sid =>
    refine (session_response_cases rfl ht hr).imp_right fun hready => ?_
    obtain rfl := response_eq (exec_getlen_ready hready) rfl ht hr
    refine ⟨rfl, ?_⟩
    rw [BitVec.toNat_setWidth_of_le (by decide)]
    exact ⟨rfl, hinv.length hready.2⟩

/-! ### The duties of the host (R116) -/

/-- The duties of a session command include a ready session (H1, R51). -/
theorem ready_of_honours {i : Instr} {sid : SessionId} (hi : i.session? = some sid) {s : State} (h : honours i s) :
    Ready sid s := by
  cases i with
  | compile needle => cases hi
  | stepb sid' b => cases hi; exact h.1
  | stepw sid' w => cases hi; exact h.1
  | nextoff sid' => cases hi; exact h.1
  | reset sid' => cases hi; exact h
  | haspend sid' => cases hi; exact h
  | getlen sid' => cases hi; exact h

/-- Settles O20: behind the checks only `NEXTOFF` and `COMPILE` can fail, and H3 and H1 keep them from it. -/
theorem honouredCommandsAnswerOk : Obligations.HonouredCommandsAnswerOk := by
  intro i s hh
  cases hi : i.session? with
  | some sid =>
    have hready := ready_of_honours hi hh
    obtain ⟨val, hok⟩ | ⟨rfl, -⟩ := ownRule_ok_or_precondition hi s
    · exact ⟨_, val, exec_ready hi hready, hok⟩
    · exact ⟨_, _, exec_nextoff_draining hready hh.2, answered_responses ..⟩
  | none =>
    obtain ⟨needle, rfl⟩ := eq_compile_of_session_none hi
    obtain ⟨hmin, hmax⟩ := hh
    exact ⟨_, 0, exec_compile_legal s hmin hmax, ret_responses _ 0⟩

/-! ### `COMPILE` forgets the block it started from (R70) -/

/-- Canonical tables that agree on every index of the address map are equal. -/
theorem memory_eq_of_mask {a b : Memory} (ha : a.wf) (hb : b.wf) (hbytes : ∀ v : Byte, a.read v.toNat = b.read v.toNat)
    (hsent : a.read sentIndex.val = b.read sentIndex.val) : a = b := by
  refine Memory.eq_of_read ha hb fun k => ?_
  rcases Nat.lt_trichotomy k sentIndex.val with hlt | heq | hgt
  · have hk : (BitVec.ofNat 8 k).toNat = k := by rw [BitVec.toNat_ofNat, Nat.mod_eq_of_lt (show k < 2 ^ 8 from hlt)]
    rw [← hk]
    exact hbytes _
  · rwa [heq]
  · rw [Memory.read_outside ha hgt, Memory.read_outside hb hgt]

/-- The compiled table does not depend on the table it is written over (R64, R70; log entry 7). -/
theorem compiledMasks_eq {a b : Block} (ha : a.mt.wf) (hb : b.mt.wf) (needle : List Byte) :
    compiledMasks needle a.mt = compiledMasks needle b.mt := by
  refine memory_eq_of_mask (wf_compiledMasks ha needle) (wf_compiledMasks hb needle) (fun v => ?bytes) ?sent
  case bytes =>
    apply BitVec.eq_of_getLsbD_eq
    intro p hp
    exact (Block.getLsbD_mask_install ha needle v hp).trans (Block.getLsbD_mask_install hb needle v hp).symm
  case sent => exact (Block.mask_install_sentinel ha needle).trans (Block.mask_install_sentinel hb needle).symm

/-- Everything else `COMPILE` writes is told by the needle (R64, R70; log entry 4). -/
theorem install_eq_install {a b : Block} (ha : a.mt.wf) (hb : b.mt.wf) (needle : List Byte) :
    a.install needle = b.install needle := by
  rw [Block.install, compiledMasks_eq ha hb]
  rfl

/-- Settles O24. -/
theorem compileIsAPureFunctionOfTheNeedle : Obligations.CompileIsAPureFunctionOfTheNeedle := by
  intro needle s u hs hu hmin hmax
  exact ⟨_, _, _, exec_compile_legal s hmin hmax, exec_compile_legal u hmin hmax, exec_compile_legal _ hmin hmax,
    install_eq_install hs hu needle, install_eq_install (wf_compiledMasks hs needle) hs needle⟩

end Sys2Proof.Proofs
end

section
/-! The other statements, second part: the encoder and the decoder are inverse to each other (30_encoding.md sections 2,
3 and 6), and the worked encodings (R62). -/

namespace Sys2Proof.Proofs

open Sys2Proof Sys2Proof.Machine

/-! ### Decoding a packet (R46 to R50) -/

/-- A session header with a zero `LEN` is its opcode under the mask of the session rows, whatever the session. -/
theorem header_and_sessionMask (sid : SessionId) (op : BitVec 4) :
    header (sid ++ op) 0 &&& 0xFF0F = op.setWidth 16 := by
  revert sid op
  decide

/-- What a session header with a zero `LEN` decodes to, by its opcode (R48, R50). -/
def sessionDecoded (sid : SessionId) (op : BitVec 4) (payload rest : List Byte) : Decoded :=
  if op = 0x2 then .command (.reset sid) rest
  else if op = 0x3 then .command (.stepb sid (payload.headD 0)) rest
  else if op = 0x4 then .command (.stepw sid (wordOfBytes payload)) rest
  else if op = 0x5 then .command (.haspend sid) rest
  else if op = 0x6 then .command (.nextoff sid) rest
  else if op = 0x7 then .command (.getlen sid) rest
  else .illegal (rejectReason (header (sid ++ op) 0)) rest

/-- The row a session header with a zero `LEN` selects is its opcode's. -/
theorem classify_session_header (sid : SessionId) {op : BitVec 4} (hop : op ≠ 0x1) (payload rest : List Byte) :
    classify (header (sid ++ op) 0) payload rest = sessionDecoded sid op payload rest := by
  have hc : header (sid ++ op) 0 &&& 0x00FF ≠ 0x0001 := fun h =>
    hop ((headerOp_header sid op 0).symm.trans (fields_of_compileMask h).1)
  have hrow : ∀ k : BitVec 4, op.setWidth 16 = k.setWidth 16 ↔ op = k := fun k =>
    ⟨fun h => by bv_omega, fun h => by rw [h]⟩
  rw [classify_eq, if_neg hc, header_and_sessionMask, headerSid_header]
  exact if_congr (hrow 2) rfl <| if_congr (hrow 3) rfl <| if_congr (hrow 4) rfl <| if_congr (hrow 5) rfl <|
    if_congr (hrow 6) rfl <| if_congr (hrow 7) rfl rfl

/-- The bytes a session command's packet carries after its header (R47). -/
def sessionPayloadLength (op : BitVec 4) : Nat := if op = 0x3 then 1 else if op = 0x4 then 8 else 0

theorem payloadLength_of_session {h : BitVec 16} (hop : headerOp h ≠ 0x1) :
    payloadLength h = sessionPayloadLength (headerOp h) :=
  if_neg hop

/-- A session command's packet is a header with a zero `LEN` and a payload of the opcode's length. -/
theorem decode_session_packet (sid : SessionId) {op : BitVec 4} {payload : List Byte} (hop : op ≠ 0x1)
    (hlen : payload.length = sessionPayloadLength op) (rest : List Byte) :
    decode (headerBytes op sid 0 ++ payload ++ rest) = sessionDecoded sid op payload rest := by
  have hn : payloadLength (header (sid ++ op) 0) = payload.length := by
    rw [payloadLength_of_session] <;> rw [headerOp_header]
    · exact hlen.symm
    · exact hop
  have hwhole := decode_whole (rest := payload ++ rest) hn (by simp)
  rwa [List.take_left, List.drop_left, classify_session_header sid hop] at hwhole

/-- A session command without a payload is decoded from its header alone. -/
theorem decode_session_header (sid : SessionId) {op : BitVec 4} (hop : op ≠ 0x1) (hlen : sessionPayloadLength op = 0)
    (rest : List Byte) : decode (headerBytes op sid 0 ++ rest) = sessionDecoded sid op [] rest :=
  decode_session_packet (payload := []) sid hop hlen.symm rest

/-- Settles O4: each packet has the length its header tells and selects its own row. -/
theorem decodeInvertsEncode : Obligations.DecodeInvertsEncode := by
  intro i rest hwf
  cases i with
  | compile needle =>
    have hlen : needle.length ≤ 255 := of_decide_eq_true hwf
    have hbyte : needle.length = (BitVec.ofNat 8 needle.length).toNat := by
      rw [BitVec.toNat_ofNat, Nat.mod_eq_of_lt (by omega)]
    exact decode_compile_packet hbyte rest
  | reset sid => exact decode_session_header sid (by decide) rfl rest
  | stepb sid b => exact decode_session_packet sid (by decide) rfl rest
  | stepw sid w =>
    refine (decode_session_packet sid (by decide) (wordBytes_length w) rest).trans ?_
    exact congrArg (fun v => Decoded.command (.stepw sid v) rest) (wordOfBytes_wordBytes w)
  | haspend sid => exact decode_session_header sid (by decide) rfl rest
  | nextoff sid => exact decode_session_header sid (by decide) rfl rest
  | getlen sid => exact decode_session_header sid (by decide) rfl rest

/-! ### Every whole packet that is not illegal is the packet of a command -/

theorem encode_compile_eq {len : Byte} {payload : List Byte} (h : payload.length = len.toNat) :
    (Instr.compile payload).wellFormed = true ∧ encode (.compile payload) = 0x01 :: len :: payload := by
  have hbyte : BitVec.ofNat 8 payload.length = len := by rw [h, BitVec.ofNat_toNat, BitVec.setWidth_eq]
  refine ⟨decide_eq_true (by have := len.isLt; omega), ?_⟩
  rw [encode, hbyte]
  rfl

/-- A session header with a zero `LEN`, with a payload of its opcode's length, is some command's packet. -/
theorem exists_encode_session (sid : SessionId) {op : BitVec 4} (h2 : 2 ≤ op) (h7 : op ≤ 7) {payload : List Byte}
    (hlen : payload.length = sessionPayloadLength op) :
    ∃ i : Instr, i.wellFormed = true ∧ encode i = headerBytes op sid 0 ++ payload := by
  have hops : op = 2 ∨ op = 3 ∨ op = 4 ∨ op = 5 ∨ op = 6 ∨ op = 7 := by bv_omega
  rcases hops with rfl | rfl | rfl | rfl | rfl | rfl
  · exact ⟨.reset sid, rfl, by rw [List.eq_nil_of_length_eq_zero hlen]; rfl⟩
  · obtain ⟨b, rfl⟩ := List.length_eq_one_iff.mp hlen
    exact ⟨.stepb sid b, rfl, rfl⟩
  · exact ⟨.stepw sid (wordOfBytes payload), rfl, by rw [encode, wordBytes_wordOfBytes hlen]⟩
  · exact ⟨.haspend sid, rfl, by rw [List.eq_nil_of_length_eq_zero hlen]; rfl⟩
  · exact ⟨.nextoff sid, rfl, by rw [List.eq_nil_of_length_eq_zero hlen]; rfl⟩
  · exact ⟨.getlen sid, rfl, by rw [List.eq_nil_of_length_eq_zero hlen]; rfl⟩

/-- Two header bytes and a payload of the length they tell are some command's packet, or the illegal command. -/
theorem exists_encode_or_illegal {b0 b1 : Byte} {payload : List Byte}
    (hlen : payload.length = payloadLength (header b0 b1)) :
    (∃ i : Instr, i.wellFormed = true ∧ encode i = b0 :: b1 :: payload) ∨
      ∀ rest, classify (header b0 b1) payload rest = .illegal (rejectReason (header b0 b1)) rest := by
  have hb0 := headerByte_split b0 b1
  by_cases hc : headerOp (header b0 b1) = 1 ∧ headerSid (header b0 b1) = 0
  · rw [payloadLength, if_pos hc.1, headerLen_header] at hlen
    rw [hc.1, hc.2] at hb0
    subst hb0
    exact .inl ⟨_, encode_compile_eq hlen⟩
  by_cases hs : 2 ≤ headerOp (header b0 b1) ∧ headerOp (header b0 b1) ≤ 7 ∧ headerLen (header b0 b1) = 0
  · obtain ⟨h2, h7, hb1⟩ := hs
    rw [payloadLength_of_session (by bv_omega)] at hlen
    rw [headerLen_header] at hb1
    obtain ⟨i, hwf, he⟩ := exists_encode_session (headerSid (header b0 b1)) h2 h7 hlen
    refine .inl ⟨i, hwf, he.trans ?_⟩
    rw [headerBytes, hb0, hb1]
    rfl
  · exact .inr fun rest => classify_illegal_of_fields hc hs payload rest

/-- Settles O5: what decodes to a command starts with some command's packet, and by the round trip it is this one's. -/
theorem decodedCommandsAreTheirOwnPackets : Obligations.DecodedCommandsAreTheirOwnPackets := by
  intro bs i rest hd
  obtain hshort | ⟨b0, b1, tail, rfl⟩ : bs.length < 2 ∨ ∃ b0 b1 tail, bs = b0 :: b1 :: tail := by
    match bs with
    | [] | [_] => simp
    | b0 :: b1 :: tail => exact .inr ⟨b0, b1, tail, rfl⟩
  · rw [decode_short hshort] at hd
    cases hd
  rcases Nat.lt_or_ge tail.length (payloadLength (header b0 b1)) with hpartial | hwhole
  · rw [decode_partial hpartial] at hd
    cases hd
  obtain ⟨j, hwf, he⟩ | hillegal := exists_encode_or_illegal (List.length_take_of_le hwhole)
  · have hpacket : b0 :: b1 :: tail = encode j ++ tail.drop (payloadLength (header b0 b1)) := by simp [he]
    have hj := decodeInvertsEncode j (tail.drop (payloadLength (header b0 b1))) hwf
    rw [hpacket, hj] at hd
    cases hd
    exact ⟨hwf, hpacket⟩
  · rw [decode_whole rfl hwhole, hillegal] at hd
    cases hd

/-! ### A word placed on the command port (log entry 1) -/

/-- The number of bytes in a command's packet is what its header tells (R47). -/
theorem encode_length {i : Instr} (hwf : i.wellFormed = true) (rest : List Byte) :
    (encode i).length = 2 + payloadLength (header ((encode i ++ rest).getD 0 0) ((encode i ++ rest).getD 1 0)) := by
  have hheader : Laws.EncodedHeader.Statement i := by
    cases i with
    | compile needle => exact Laws.EncodedHeader.compile needle
    | reset sid => exact Laws.EncodedHeader.reset sid
    | stepb sid b => exact Laws.EncodedHeader.stepb sid b
    | stepw sid w => exact Laws.EncodedHeader.stepw sid w
    | haspend sid => exact Laws.EncodedHeader.haspend sid
    | nextoff sid => exact Laws.EncodedHeader.nextoff sid
    | getlen sid => exact Laws.EncodedHeader.getlen sid
  obtain ⟨b0, b1, payload, he, hlen, -⟩ := hheader
  rw [he, List.length_cons, List.length_cons, hlen hwf]
  exact Nat.add_comm _ 2

/-- The packet cut from an opcode-table word is the packet of the command the decoder reads from it. -/
theorem tablePacket_eq_encode {nbits w : Nat} {i : Instr} (h : decodeTableWord nbits w = some i) :
    i.wellFormed = true ∧ tablePacket nbits w = encode i := by
  unfold decodeTableWord at h
  split at h
  · rename_i j rest hd
    obtain rfl := Option.some.inj h
    obtain ⟨hwf, hbytes⟩ := decodedCommandsAreTheirOwnPackets _ _ _ hd
    refine ⟨hwf, ?_⟩
    rw [tablePacket, hbytes, ← encode_length hwf, List.take_left]
  · cases h
  · cases h

/-- Settles O11. -/
theorem placedWordRunsNext : Obligations.PlacedWordRunsNext := by
  intro nbits w i s h
  obtain ⟨hwf, hpacket⟩ := tablePacket_eq_encode h
  have hd : decode (s.withFetchWord nbits w).cmdPort = .command i s.cmdPort := by
    rw [State.withFetchWord, placePacket_cmdPort, hpacket]
    exact decodeInvertsEncode i s.cmdPort hwf
  exact step_command hd

/-! ### The opcode map (R48) -/

/-- Every row's mask keeps the opcode, so a header that selects a row has the row's opcode. -/
theorem headerOp_of_selects {r : OpcodeRow} (hr : r ∈ opcodeTable) {h : BitVec 16} (hs : r.selects h = true) :
    headerOp h = headerOp r.pattern := by
  have hmask : ∀ q ∈ opcodeTable, headerOp q.mask = BitVec.allOnes 4 := by decide
  rw [← of_decide_eq_true hs, headerOp_and, hmask r hr, BitVec.and_allOnes]

/-- Settles O6: the seven opcodes differ. -/
theorem opcodeRowsAreDisjoint : Obligations.OpcodeRowsAreDisjoint := by
  intro h r q hr hq hsr hsq
  have hops : ∀ r ∈ opcodeTable, ∀ q ∈ opcodeTable, headerOp r.pattern = headerOp q.pattern →
      r.mnemonic = q.mnemonic := by decide
  exact hops r hr q hq ((headerOp_of_selects hr hsr).symm.trans (headerOp_of_selects hq hsq))

/-! ### The worked encodings (R62) -/

/-- Settles O8: the lines, the packets and the responses are all literal, and `09 00` decodes to the illegal command. -/
theorem workedEncodingsAreTheSpecs : Obligations.WorkedEncodingsAreTheSpecs := by
  have hreserved : decode [0x09, 0x00] = .illegal .reservedOp [] := by decide
  refine ⟨by decide, by decide, rfl, rfl, rfl, rfl, by decide, rfl, by decide, by decide, rfl, rfl, rfl, hreserved,
    step_illegal hreserved, ?_⟩
  decide

end Sys2Proof.Proofs
end

section
/-! The other statements, third part: the batch update's closed form (R81), the history bits (R87), sessions with equal
progress (R75), and one `STEPW` against eight `STEPB`s (R83, R84, R86). -/

namespace Sys2Proof.Proofs

open Sys2Proof Sys2Proof.Machine Sys2Proof.Safety

/-! ### The closed form of the batch update (R81) -/

/-- One place up, a one coming in from below: the update rule before its mask (R76). -/
def shiftIn (x : Word) : Word := (x <<< 1) ||| 1

theorem advance_eq_shiftIn (p mask : Word) : advance p mask = shiftIn p &&& mask := rfl

theorem shiftIn_and (x y : Word) : shiftIn (x &&& y) = shiftIn x &&& shiftIn y := by
  ext i hi
  by_cases h : i = 0 <;> simp [shiftIn, h]

/-- A value that has moved up `j` places over the low bits `c` moves up one more. -/
theorem shiftIn_or (x c : Word) (j : Nat) : shiftIn ((x <<< j) ||| c) = (x <<< (j + 1)) ||| shiftIn c := by
  simp only [shiftIn, BitVec.shiftLeft_or_distrib, BitVec.or_assoc, BitVec.shiftLeft_add]

/-- Settles O29: the update distributes over the masks already applied, so each mask moves up once per later byte. -/
theorem batchUpdateHasTheClosedForm : Obligations.BatchUpdateHasTheClosedForm := by
  intro s p w
  have hshift : ∀ x : Word, shiftIn x = (x <<< 1) ||| 1 := fun _ => rfl
  simp only [wordBytes_eq, State.advanceBytes, List.foldl_cons, List.foldl_nil, advance_eq_shiftIn, shiftIn_and]
  simp only [hshift p, hshift (s.byteMask _), shiftIn_or]
  rfl

/-! ### Steps under one table (R75) -/

/-- The update reads the table alone. -/
theorem advanceBytes_eq_of_masks {s u : State} (h : ∀ k : Index, u.mask k = s.mask k) (p : Word) (bs : List Byte) :
    u.advanceBytes p bs = s.advanceBytes p bs := by
  simp only [State.advanceBytes, State.byteMask, h]

/-- Settles O33: what a step writes and answers is told by the old progress, the operand and the table. -/
theorem equalSessionsStepAlike : Obligations.EqualSessionsStepAlike := by
  intro p q s u hp hq hprog hmasks hnlen hssm hbsm
  have hstepb : ∀ b : Byte, stepbProg p b s = stepbProg q b u := fun b => by
    rw [stepbProg, stepbProg, hprog, State.byteMask, State.byteMask, hmasks]
  have hstepw : ∀ w : Word, stepwProg p w s = stepwProg q w u := fun w => by
    rw [stepwProg, stepwProg, hprog, advanceBytes_eq_of_masks hmasks, hmasks]
  refine ⟨fun b => ⟨_, _, _, exec_stepb_ready hp b, exec_stepb_ready hq b, ?progB, answered_responses .., ?respB⟩,
    fun w => ⟨_, _, _, exec_stepw_ready hp w, exec_stepw_ready hq w, ?progW, ?pendW, answered_responses .., ?respW⟩⟩
  case progB => rw [answered_prog_self, answered_prog_self, hstepb]
  case respB => rw [answered_responses, hstepb, hssm]
  case progW => rw [answered_prog_self, answered_prog_self, hstepw]
  case pendW => rw [answered_pend_self, answered_pend_self, hstepw, hnlen, hbsm]
  case respW => rw [answered_responses, hstepw, hbsm]

/-! ### The history bits (R87) -/

/-- Under a compiled table a bit from `NLEN` up moves up by one place with each byte. -/
theorem getLsbD_advance_history {s : State} (hinv : BlockInv s.block) (htv : s.block.tv = true) (p : Word) (b : Byte)
    {q : Nat} (hlow : s.block.nlen.toNat ≤ q) (hq : q < 64) :
    (advance p (s.byteMask b)).getLsbD q = p.getLsbD (q - 1) := by
  obtain ⟨hpos, -⟩ := hinv.length htv
  have hne : q ≠ 0 := by omega
  have hmask : (s.byteMask b).getLsbD q = true := hinv.permissiveBits htv b q hlow hq
  rw [getLsbD_advance _ _ q hq, hmask, decide_eq_false hne, Bool.false_or, Bool.and_true]

/-- Settles O32. -/
theorem completionsMoveUpTheHistory : Obligations.CompletionsMoveUpTheHistory := by
  refine fun sid b s hinv hready => ⟨_, exec_stepb_ready hready b, fun q hlow hq => ?_⟩
  rw [answered_prog_self]
  exact getLsbD_advance_history hinv hready.2 (s.prog sid) b hlow hq

/-- A completion at bit `NLEN-1` stands `bs.length` places higher after the bytes `bs`. -/
theorem getLsbD_advanceBytes_history {s : State} (hinv : BlockInv s.block) (htv : s.block.tv = true) :
    ∀ (bs : List Byte) (p : Word) {q : Nat}, s.block.nlen.toNat - 1 ≤ q → q + bs.length < 64 →
      (s.advanceBytes p bs).getLsbD (q + bs.length) = p.getLsbD q
  | [], _, _, _, _ => rfl
  | b :: bs, p, q, hlow, hq => by
    rw [List.length_cons] at hq ⊢
    have hrest := getLsbD_advanceBytes_history hinv htv bs (advance p (s.byteMask b)) (q := q + 1) (by omega) (by omega)
    calc (s.advanceBytes p (b :: bs)).getLsbD (q + (bs.length + 1))
      _ = (s.advanceBytes (advance p (s.byteMask b)) bs).getLsbD (q + 1 + bs.length) := by
        rw [Nat.add_right_comm, Nat.add_assoc]; rfl
      _ = (advance p (s.byteMask b)).getLsbD (q + 1) := hrest
      _ = p.getLsbD q := getLsbD_advance_history hinv htv p b (by omega) (by omega)

/-! ### A run of `STEPB`s (R76, R77) -/

/-- The answer of a `STEPB` that leaves `t` in `PROG` (R77). -/
def stepbAnswer (s : State) (t : Word) : Response := ⟨.ok, if t &&& s.block.ssm = 0 then 1 else 0⟩

/-- The answers of `STEPB`s on the bytes `bs`, from the progress `p` on. -/
def stepbAnswers (s : State) (p : Word) (bs : List Byte) : List Response :=
  (List.range bs.length).map fun k => stepbAnswer s (s.advanceBytes p (bs.take (k + 1)))

theorem stepbAnswers_cons (s : State) (p : Word) (b : Byte) (bs : List Byte) :
    stepbAnswers s p (b :: bs) =
      stepbAnswer s (advance p (s.byteMask b)) :: stepbAnswers s (advance p (s.byteMask b)) bs := by
  rw [stepbAnswers, List.length_cons, List.range_succ_eq_map, List.map_cons, List.map_map]
  rfl

@[simp] theorem stepbAnswers_length (s : State) (p : Word) (bs : List Byte) :
    (stepbAnswers s p bs).length = bs.length := by simp [stepbAnswers]

theorem execAll_cons {i : Instr} {s t : State} (h : exec i s = .next t) (is : List Instr) :
    execAll (i :: is) s = execAll is t := by
  simp only [execAll, h]

/-- A session stays ready when a command has answered. -/
theorem ready_answered {sid : SessionId} {s : State} (h : Ready sid s) (x : Session) (r : Response) :
    Ready sid (answered sid x r s) := h

/-- `STEPB`s on a ready session advance its progress byte by byte, each with its own answer. -/
theorem execAll_stepb {sid : SessionId} : ∀ (bs : List Byte) {s : State}, Ready sid s →
    ∃ u, execAll (bs.map (.stepb sid ·)) s = .next u ∧ u.prog sid = s.advanceBytes (s.prog sid) bs ∧
      u.responses = s.responses ++ stepbAnswers s (s.prog sid) bs
  | [], s, _ => ⟨s, rfl, rfl, (List.append_nil _).symm⟩
  | b :: bs, s, hready => by
    have hfirst := exec_stepb_ready hready b
    obtain ⟨u, hrest, hprog, hresp⟩ := execAll_stepb bs (ready_answered hready _ _)
    rw [answered_prog_self] at hprog hresp
    refine ⟨u, (execAll_cons hfirst _).trans hrest, hprog, ?_⟩
    rw [hresp, answered_responses, List.append_assoc, stepbAnswers_cons]
    rfl

/-! ### The success masks (R18, R77, R82) -/

theorem eq_zero_iff_getLsbD (a : Word) : a = 0 ↔ ∀ k < 64, a.getLsbD k = false :=
  ⟨fun h => by simp [h], fun h => BitVec.eq_of_getLsbD_eq fun k hk => by simp [h k hk]⟩

/-- The success mask of a single step tests one bit. -/
theorem and_singleBit_eq_zero_iff (t : Word) {k : Nat} (hk : k < 64) :
    t &&& ((1 : Word) <<< k) = 0 ↔ t.getLsbD k = false := by
  have hne : BitVec.twoPow 64 k ≠ 0#64 := ne_zero_of_getLsbD (p := k) (by simp [hk])
  have hbit : (1 : Word) <<< k = BitVec.twoPow 64 k := (BitVec.twoPow_eq 64 k).symm
  rw [hbit, BitVec.and_twoPow]
  simp [hne]

/-- The bit of sub-offset `k+1` is the progress bit `7-k` places above `NLEN-1` (R82). -/
theorem getLsbD_unpack_batchMask (nlen : BitVec 6) (h : nlen.toNat ≤ 57) (t : Word) {k : Nat} (hk : k < 8) :
    (unpack nlen (t &&& ((0xFF : Word) <<< (nlen.toNat - 1)))).getLsbD k = t.getLsbD (nlen.toNat - 1 + (7 - k)) := by
  have hwindow : nlen.toNat - 1 ≤ nlen.toNat - 1 + (7 - k) ∧ nlen.toNat - 1 + (7 - k) < nlen.toNat - 1 + 8 := by omega
  rw [getLsbD_unpack, decide_eq_true hk, Bool.true_and, BitVec.getLsbD_and, getLsbD_batchMask _ (by omega),
    decide_eq_true hwindow, Bool.and_true]

/-! ### One `STEPW` against eight `STEPB`s (R83, R84, R86) -/

/-- The sentinel clears nothing, so `STEPW` leaves the progress of eight byte updates (R86). -/
theorem stepwProg_eq_advanceBytes {s : State} (h : s.block.mask sentIndex = ones) (sid : SessionId) (w : Word) :
    stepwProg sid w s = s.advanceBytes (s.prog sid) (wordBytes w) := by
  rw [stepwProg, State.mask, h, BitVec.and_allOnes]

section WordAgainstBytes
variable {s : State} (hinv : BlockInv s.block) (htv : s.block.tv = true)
include hinv htv

/-- A `STEPB` reports a completion exactly when it sets bit `NLEN-1` (R77). -/
theorem stepbAnswer_eq (t : Word) :
    stepbAnswer s t = ⟨.ok, if t.getLsbD (s.block.nlen.toNat - 1) then 0 else 1⟩ := by
  have hlen := hinv.length htv
  rw [stepbAnswer, hinv.ssm htv]
  simp only [and_singleBit_eq_zero_iff t (show s.block.nlen.toNat - 1 < 64 by omega)]
  cases t.getLsbD (s.block.nlen.toNat - 1) <;> rfl

/-- Bit `k` of the new `PEND` is bit `NLEN-1` of the progress after the first `k+1` bytes (R83, R87). -/
theorem getLsbD_stepwPend (sid : SessionId) (w : Word) {k : Nat} (hk : k < 8) :
    (unpack s.block.nlen (stepwProg sid w s &&& s.block.bsm)).getLsbD k =
      (s.advanceBytes (s.prog sid) ((wordBytes w).take (k + 1))).getLsbD (s.block.nlen.toNat - 1) := by
  obtain ⟨hpos, hle⟩ := hinv.length htv
  have hlater : ((wordBytes w).drop (k + 1)).length = 7 - k := by simp
  have hsplit : s.advanceBytes (s.prog sid) (wordBytes w) =
      s.advanceBytes (s.advanceBytes (s.prog sid) ((wordBytes w).take (k + 1))) ((wordBytes w).drop (k + 1)) := by
    simp only [State.advanceBytes, ← List.foldl_append, List.take_append_drop]
  rw [hinv.bsm htv, getLsbD_unpack_batchMask _ hle _ hk, stepwProg_eq_advanceBytes (hinv.sentinel htv), hsplit,
    ← hlater]
  exact getLsbD_advanceBytes_history hinv htv _ _ (Nat.le_refl _) (by omega)

/-- The `k+1`-th `STEPB` reports a completion exactly when `STEPW` records sub-offset `k+1` (R83). -/
theorem getLsbD_stepwPend_iff (sid : SessionId) (w : Word) {k : Nat} (hk : k < 8) :
    (unpack s.block.nlen (stepwProg sid w s &&& s.block.bsm)).getLsbD k = true ↔
      (stepbAnswers s (s.prog sid) (wordBytes w))[k]? = some ⟨.ok, 0⟩ := by
  rw [getLsbD_stepwPend hinv htv sid w hk]
  simp [stepbAnswers, hk, stepbAnswer_eq hinv htv]

/-- `STEPW` reports no completion exactly when none of the eight `STEPB`s does (R84). -/
theorem stepw_noCompletion_iff (sid : SessionId) (w : Word) :
    stepwProg sid w s &&& s.block.bsm = 0 ↔
      (stepbAnswers s (s.prog sid) (wordBytes w)).all (fun r => decide (r.val = 1)) = true := by
  have hbits : unpack s.block.nlen (stepwProg sid w s &&& s.block.bsm) = 0 ↔ ∀ k < 8,
      (s.advanceBytes (s.prog sid) ((wordBytes w).take (k + 1))).getLsbD (s.block.nlen.toNat - 1) = false := by
    rw [eq_zero_iff_getLsbD]
    refine ⟨fun h k hk => ?_, fun h k _ => ?_⟩
    · rw [← getLsbD_stepwPend hinv htv sid w hk, h k (by omega)]
    · rcases Nat.lt_or_ge k 8 with hk | hk
      · rw [getLsbD_stepwPend hinv htv sid w hk, h k hk]
      · exact getLsbD_unpack_above _ _ hk
  rw [← unpack_eq_zero_iff hinv htv, hbits]
  simp [stepbAnswers, stepbAnswer_eq hinv htv]

end WordAgainstBytes

/-- Settles O30: the eight answers are bit `NLEN-1` after each byte, which has moved into the window when the word is
done. -/
theorem wordStepEqualsEightByteSteps : Obligations.WordStepEqualsEightByteSteps := by
  intro sid w s hinv hready
  have htv := hready.2
  obtain ⟨u, hu, hprog, hresp⟩ := execAll_stepb (wordBytes w) hready
  refine ⟨_, u, stepbAnswers s (s.prog sid) (wordBytes w), exec_stepw_ready hready w, hu, ?prog, hresp,
    stepbAnswers_length s _ _, fun r hr => ?boolean, fun j hpos hj => ?pend, ?result⟩
  case prog => rw [answered_prog_self, stepwProg_eq_advanceBytes (hinv.sentinel htv), hprog]
  case boolean =>
    obtain ⟨k, -, rfl⟩ := List.mem_map.mp hr
    exact (ite_eq_or_eq _ _ _).symm.imp (congrArg (Response.mk .ok)) (congrArg (Response.mk .ok))
  case pend => rw [answered_pend_self, getLsbD_stepwPend_iff hinv htv sid w (by omega)]
  case result =>
    rw [answered_responses]
    simp only [stepw_noCompletion_iff hinv htv]

end Sys2Proof.Proofs
end

section
/-! The other statements, fourth part: the pending sub-offsets as a list, and the drain that reports them (R92, R94,
R96). -/

namespace Sys2Proof.Proofs

open Sys2Proof Sys2Proof.Machine Sys2Proof.Safety

/-! ### What a `PEND` register says (R15, R94) -/

/-- The sub-offsets a `PEND` register holds, latest first: sub-offset `j` is bit `j-1` (R82). -/
structure PendingOffsets (a : Word) (js : List Nat) : Prop where
  descending : js.Pairwise (· > ·)
  range : ∀ j ∈ js, 1 ≤ j ∧ j ≤ 8
  bits : ∀ k : Nat, k < 64 → (a.getLsbD k = true ↔ k + 1 ∈ js)

theorem pendingOffsets_zero : PendingOffsets 0 [] := ⟨.nil, by simp, by simp⟩

/-- The sub-offsets of a word that pass a test, where the test tells the bits. -/
theorem pendingOffsets_filter {a : Word} {test : Nat → Bool}
    (h : ∀ k : Nat, k < 64 → (a.getLsbD k = true ↔ k < 8 ∧ test (k + 1) = true)) :
    PendingOffsets a ([8, 7, 6, 5, 4, 3, 2, 1].filter test) where
  descending := List.Pairwise.filter test (by decide)
  range j hj := by
    have hall : ∀ j ∈ [8, 7, 6, 5, 4, 3, 2, 1], 1 ≤ j ∧ j ≤ 8 := by decide
    exact hall j (List.mem_of_mem_filter hj)
  bits k hk := by
    have hmem : k + 1 ∈ [8, 7, 6, 5, 4, 3, 2, 1] ↔ k < 8 := by
      simp only [List.mem_cons, List.not_mem_nil, or_false]
      omega
    rw [h k hk, List.mem_filter, hmem]

/-- A register of at most 0xFF holds the sub-offsets of its bits (R27.1). -/
theorem pendingOffsets_of_le {a : Word} (ha : a ≤ 0xFF) :
    PendingOffsets a ([8, 7, 6, 5, 4, 3, 2, 1].filter fun j => a.getLsbD (j - 1)) :=
  pendingOffsets_filter fun _ _ => ⟨fun h => ⟨lt_eight_of_getLsbD_of_le ha h, h⟩, And.right⟩

section PendingOffsets
variable {a : Word} {j : Nat} {js : List Nat}

theorem PendingOffsets.mem_iff (h : PendingOffsets a js) (j : Nat) :
    j ∈ js ↔ 1 ≤ j ∧ a.getLsbD (j - 1) = true := by
  refine ⟨fun hj => ?_, fun ⟨hpos, hbit⟩ => ?_⟩
  · obtain ⟨hpos, hle⟩ := h.range j hj
    refine ⟨hpos, (h.bits _ (by omega)).mpr ?_⟩
    rwa [Nat.sub_add_cancel hpos]
  · have := (h.bits _ (BitVec.lt_of_getLsbD hbit)).mp hbit
    rwa [Nat.sub_add_cancel hpos] at this

/-- Nothing is pending exactly when the register is zero. -/
theorem PendingOffsets.eq_zero_iff (h : PendingOffsets a js) : a = 0 ↔ js = [] := by
  rw [eq_zero_iff_getLsbD, List.eq_nil_iff_forall_not_mem]
  refine ⟨fun hz j hj => ?_, fun hnil k hk => ?_⟩
  · obtain ⟨hpos, hbit⟩ := (h.mem_iff j).mp hj
    rw [hz _ (BitVec.lt_of_getLsbD hbit)] at hbit
    cases hbit
  · exact Bool.eq_false_iff.mpr fun hbit => hnil _ ((h.bits k hk).mp hbit)

theorem PendingOffsets.ne_zero (h : PendingOffsets a (j :: js)) : a ≠ 0 :=
  fun hz => List.cons_ne_nil j js (h.eq_zero_iff.mp hz)

/-- The next offset is the first of the list: no later one is pending (R94). -/
theorem PendingOffsets.nextOffset_eq (h : PendingOffsets a (j :: js)) : nextOffset a = j := by
  obtain ⟨hpos, -, hbit, habove⟩ := nextOffset_spec h.ne_zero
  obtain ⟨hjpos, hjbit⟩ := (h.mem_iff j).mp List.mem_cons_self
  have hge : j ≤ nextOffset a := by
    by_contra hlt
    rw [habove (j - 1) (by omega) (BitVec.lt_of_getLsbD hjbit)] at hjbit
    cases hjbit
  obtain heq | htail := List.mem_cons.mp ((h.mem_iff _).mpr ⟨hpos, hbit⟩)
  · exact heq
  · exact absurd (List.rel_of_pairwise_cons h.descending htail) (by omega)

/-- Clearing the first offset leaves the others (R92). -/
theorem PendingOffsets.clear_head (h : PendingOffsets a (j :: js)) : PendingOffsets (clearOffset a j) js where
  descending := h.descending.of_cons
  range i hi := h.range i (List.mem_cons_of_mem j hi)
  bits k hk := by
    obtain ⟨hpos, -⟩ := h.range j List.mem_cons_self
    have hnot : j ∉ js := fun hj => absurd (List.rel_of_pairwise_cons h.descending hj) (by omega)
    have hk1 : k ≠ j - 1 ↔ k + 1 ≠ j := by omega
    rw [getLsbD_clearOffset a hpos, Bool.and_eq_true, h.bits k hk, decide_eq_true_iff, hk1, List.mem_cons]
    refine ⟨fun ⟨hmem, hne⟩ => hmem.resolve_left hne, fun hmem => ⟨.inr hmem, ?_⟩⟩
    rintro rfl
    exact hnot hmem

end PendingOffsets

/-! ### Draining a session (R94, R96) -/

/-- Two writes to one session are a frame of that session. -/
theorem sessionFrame_trans {sid : SessionId} {s t u : State} (h : SessionFrame sid s t) (k : SessionFrame sid t u) :
    SessionFrame sid s u where
  masks i := (k.masks i).trans (h.masks i)
  nlen := k.nlen.trans h.nlen
  ssm := k.ssm.trans h.ssm
  bsm := k.bsm.trans h.bsm
  tv := k.tv.trans h.tv
  sessions r hr := ⟨((k.sessions r hr).1).trans (h.sessions r hr).1, ((k.sessions r hr).2).trans (h.sessions r hr).2⟩
  cmdPort := k.cmdPort.trans h.cmdPort

theorem sessionFrame_refl (sid : SessionId) (s : State) : SessionFrame sid s s :=
  ⟨fun _ => rfl, rfl, rfl, rfl, rfl, fun _ _ => ⟨rfl, rfl⟩, rfl⟩

/-- `NEXTOFF` reports the first pending sub-offset and keeps the others (R92). -/
theorem exec_nextoff_of_pending {sid : SessionId} {s : State} (hr : Ready sid s) {j : Nat} {js : List Nat}
    (h : PendingOffsets (s.pend sid) (j :: js)) :
    exec (.nextoff sid) s =
      .next (answered sid ⟨s.prog sid, clearOffset (s.pend sid) j⟩ ⟨.ok, BitVec.ofNat 16 j⟩ s) := by
  rw [exec_nextoff_draining hr h.ne_zero, h.nextOffset_eq]

/-- As many `NEXTOFF`s as sub-offsets are pending report them in order and leave the session idle. -/
theorem execAll_nextoff {sid : SessionId} : ∀ (js : List Nat) {s : State}, Ready sid s →
    PendingOffsets (s.pend sid) js → ∃ t, execAll (List.replicate js.length (.nextoff sid)) s = .next t ∧
      t.responses = s.responses ++ js.map (fun j => ⟨.ok, BitVec.ofNat 16 j⟩) ∧
      t.pend sid = 0 ∧ t.prog sid = s.prog sid ∧ SessionFrame sid s t
  | [], s, _, h => ⟨s, rfl, (List.append_nil _).symm, h.eq_zero_iff.mpr rfl, rfl, sessionFrame_refl sid s⟩
  | j :: js, s, hr, h => by
    have hfirst := exec_nextoff_of_pending hr h
    have hothers : PendingOffsets ((answered sid ⟨s.prog sid, clearOffset (s.pend sid) j⟩
        ⟨.ok, BitVec.ofNat 16 j⟩ s).pend sid) js := by
      rw [answered_pend_self]
      exact h.clear_head
    obtain ⟨t, hrest, hresp, hpend, hprog, hframe⟩ := execAll_nextoff js (ready_answered hr _ _) hothers
    refine ⟨t, (execAll_cons hfirst _).trans hrest, ?_, hpend, hprog.trans (answered_prog_self ..),
      sessionFrame_trans (sessionFrame_answered ..) hframe⟩
    rw [hresp, answered_responses, List.append_assoc]
    rfl

/-- Settles O37. -/
theorem drainReportsEachCompletionOnceLatestFirst : Obligations.DrainReportsEachCompletionOnceLatestFirst := by
  intro sid s hready hbyte
  have hpending := pendingOffsets_of_le hbyte
  obtain ⟨t, hrun⟩ := execAll_nextoff _ hready hpending
  exact ⟨_, t, hpending.descending, List.length_filter_le _ _, hpending.mem_iff, hrun⟩

end Sys2Proof.Proofs
end

section
/-! The other statements, fifth part: the block against the naive matcher (10_state.md R14, 40_compile.md R66,
42_step.md R80, R83, 43_drain.md R94). -/

namespace Sys2Proof.Proofs

open Sys2Proof Sys2Proof.Machine Sys2Proof.Safety

/-! ### Where in a stream the needle ended (R14, R80) -/

/-- The needle ended `d` bytes before the end of the stream `xs`. -/
def EndedAgo (needle xs : List Byte) (d : Nat) : Prop := d ≤ xs.length ∧ needle <:+ xs.take (xs.length - d)

theorem endedAgo_zero (needle xs : List Byte) : EndedAgo needle xs 0 ↔ needle <:+ xs := by simp [EndedAgo]

/-- Bytes after it put an end of the needle farther back. -/
theorem endedAgo_append (needle xs ys : List Byte) (d : Nat) :
    EndedAgo needle (xs ++ ys) (d + ys.length) ↔ EndedAgo needle xs d := by
  rw [EndedAgo, EndedAgo, List.length_append, Nat.add_le_add_iff_right, Nat.add_sub_add_right,
    List.take_append_of_le_length (Nat.sub_le _ _)]

theorem completes_iff (needle xs : List Byte) : completes needle xs = true ↔ EndedAgo needle xs 0 :=
  List.isSuffixOf_iff_suffix.trans (endedAgo_zero needle xs).symm

/-- The stream ends with `p+1` bytes of the needle when it ended with `p` of them before and the byte is the next. -/
theorem take_succ_suffix_concat {needle : List Byte} {p : Nat} (hp : p < needle.length) (xs : List Byte) (b : Byte) :
    needle.take (p + 1) <:+ xs ++ [b] ↔ needle.take p <:+ xs ∧ needle[p]? = some b := by
  rw [← List.take_append_getElem hp, List.suffix_append_inj_of_length_eq (by simp), List.getElem?_eq_getElem hp]
  simp

/-! ### What a progress register says (R14) -/

/-- From bit `m-1` up a progress register says how long ago the needle ended. -/
theorem progressOf_getLsbD_iff {needle xs : List Byte} {p : Word} (hpos : 1 ≤ needle.length)
    (h : ProgressOf needle xs p) {q : Nat} (hlow : needle.length - 1 ≤ q) (hq : q < 64) :
    p.getLsbD q = true ↔ EndedAgo needle xs (q - (needle.length - 1)) := by
  rcases Nat.lt_or_ge q needle.length with hlive | hhistory
  · have hlast : q + 1 = needle.length := by omega
    have hzero : q - (needle.length - 1) = 0 := by omega
    rw [h.live q hlive, hlast, List.take_length, hzero, endedAgo_zero]
  · exact h.history q hhistory hq

/-- No needle has ended in an empty stream, and no byte of one stands in it (R14, R26). -/
theorem progressOf_nil {needle : List Byte} (hpos : 1 ≤ needle.length) : ProgressOf needle [] 0 where
  live p hp := by
    have hne : needle ≠ [] := List.ne_nil_of_length_pos hpos
    simp [hne]
  history p hp _ := by
    have hago : ¬ p - (needle.length - 1) ≤ 0 := by omega
    simp [hago]

section Table
variable {needle : List Byte} {s : State} (ht : TableOf needle s.block)
include ht

/-- The update rule keeps a progress register true of the stream (R14, R76). -/
theorem progressOf_advance {xs : List Byte} {p : Word} (h : ProgressOf needle xs p) (b : Byte) :
    ProgressOf needle (xs ++ [b]) (advance p (s.byteMask b)) where
  live q hq := by
    have hmax := ht.atMost57
    have hmask : (s.byteMask b).getLsbD q = true ↔ needle[q]? = some b := by
      rw [State.byteMask, State.mask, ht.masks b q (by omega)]
      exact or_iff_right (by omega)
    rw [getLsbD_advance _ _ q (by omega), Bool.and_eq_true, hmask, take_succ_suffix_concat hq]
    refine and_congr_left fun _ => ?_
    cases q with
    | zero => simp
    | succ q => simpa using h.live q (by omega)
  history q hlow hq := by
    have hpos := ht.atLeastOne
    have hne : q ≠ 0 := by omega
    have hmask : (s.byteMask b).getLsbD q = true := (ht.masks b q hq).mpr (.inl hlow)
    have hago : q - (needle.length - 1) = q - 1 - (needle.length - 1) + [b].length := by
      rw [List.length_singleton]
      omega
    rw [getLsbD_advance _ _ q hq, hmask, decide_eq_false hne, Bool.false_or, Bool.and_true,
      progressOf_getLsbD_iff hpos h (by omega) (by omega), hago]
    exact (endedAgo_append needle xs [b] _).symm

theorem progressOf_advanceBytes : ∀ (bs : List Byte) {xs : List Byte} {p : Word}, ProgressOf needle xs p →
    ProgressOf needle (xs ++ bs) (s.advanceBytes p bs)
  | [], xs, _, h => by rwa [List.append_nil]
  | b :: bs, xs, p, h => by
    have hrest := progressOf_advanceBytes bs (progressOf_advance ht h b)
    rwa [List.append_assoc] at hrest

/-- No bit of the success mask is set exactly when the stream does not end with the needle (R77, R80). -/
theorem and_ssm_eq_zero_iff {xs : List Byte} {p : Word} (h : ProgressOf needle xs p) :
    p &&& s.block.ssm = 0 ↔ completes needle xs = false := by
  have hmax := ht.atMost57
  have hbit := progressOf_getLsbD_iff ht.atLeastOne h (Nat.le_refl _) (by omega)
  rw [Nat.sub_self, ← completes_iff] at hbit
  rw [ht.ssm, and_singleBit_eq_zero_iff p (by omega), Bool.eq_false_iff, Bool.eq_false_iff, ne_eq, ne_eq, hbit]

/-- The sub-offsets of a word are those at which the naive matcher finds the needle's end (R83, R94). -/
theorem pendingOffsets_stepw {xs bs : List Byte} {p : Word} (hbs : bs.length = 8)
    (h : ProgressOf needle (xs ++ bs) p) :
    PendingOffsets (unpack s.block.nlen (p &&& s.block.bsm)) (wordCompletions needle xs bs) := by
  have hmax := ht.atMost57
  refine pendingOffsets_filter fun k hk64 => ?_
  rcases Nat.lt_or_ge k 8 with hk | hk
  · have hlater : 7 - k = 0 + (bs.drop (k + 1)).length := by rw [List.length_drop]; omega
    have hstream : xs ++ bs = xs ++ bs.take (k + 1) ++ bs.drop (k + 1) := by simp
    rw [ht.bsm, ← ht.nlen, getLsbD_unpack_batchMask _ (by rw [ht.nlen]; exact hmax) _ hk, ht.nlen,
      progressOf_getLsbD_iff ht.atLeastOne h (Nat.le_add_right _ _) (by omega), Nat.add_sub_cancel_left, hlater,
      hstream, endedAgo_append, ← completes_iff]
    simp [hk]
  · simp [getLsbD_unpack_above _ _ hk, Nat.not_lt.mpr hk]

/-- The window holds every bit of the needle's batch success mask (R82, R84). -/
theorem unpack_eq_zero_iff_of_tableOf (t : Word) :
    unpack s.block.nlen (t &&& s.block.bsm) = 0 ↔ t &&& s.block.bsm = 0 := by
  have hnlen : s.block.nlen = (Block.powerOn.install needle).nlen :=
    BitVec.eq_of_toNat_eq (ht.nlen.trans (Block.nlen_install_toNat _ ht.atMost57).symm)
  rw [hnlen, ht.bsm]
  exact unpack_eq_zero_iff (blockInv_install Memory.wf_nil ht.atLeastOne ht.atMost57) rfl t

end Table

/-! ### Keeping track of the naive matcher -/

/-- The block after a command gives the naive matcher's response and tracks what it then knows. -/
def KeepsTrack (n : Naive) (i : Instr) (s : State) : Prop :=
  ∃ t, exec i s = .next t ∧ t.block.mt.wf ∧ t.responses = s.responses ++ [(n.run i).1] ∧ Tracks (n.run i).2 t.block

/-- A successful `COMPILE` starts every stream anew, whatever the block held (R66, R68). -/
theorem keepsTrack_compile {needle : List Byte} {s : State} (hwf : s.block.mt.wf) (hmin : 1 ≤ needle.length)
    (hmax : needle.length ≤ 57) (n : Naive) : KeepsTrack n (.compile needle) s := by
  have hzero : ∀ sid : SessionId, (s.block.install needle).session sid = Session.zero :=
    Block.session_install s.block needle
  refine ⟨_, exec_compile_legal s hmin hmax, wf_compiledMasks hwf needle, ret_responses _ 0,
    tableOf_install hwf hmin hmax, fun sid _ => ?_, fun _ => .nil, fun _ _ hj => absurd hj List.not_mem_nil,
    fun sid _ k hk => ?_⟩
  · rw [ret_block, hzero]
    exact progressOf_nil hmin
  · rw [ret_block, hzero]
    exact pendingOffsets_zero.bits k hk

/-- Settles O39. -/
theorem compileStartsTrackingTheNaiveMatcher : Obligations.CompileStartsTrackingTheNaiveMatcher := by
  intro needle s hwf hmin hmax
  obtain ⟨t, ht, -, -, htracks⟩ := keepsTrack_compile hwf hmin hmax ⟨needle, fun _ => ⟨[], []⟩⟩
  exact ⟨t, ht, htracks⟩

/-- A write to one session keeps track of that session's new scan and of the others' old ones. -/
theorem tracks_setSession {n : Naive} {b : Block} (h : Tracks n b) {sid : SessionId} {x : Scan} {y : Session}
    (hprog : ProgressOf n.needle x.consumed y.prog) (hpend : PendingOffsets y.pend x.pending) :
    Tracks (n.setScan sid x) (b.setSession sid y) where
  table := ⟨h.table.valid, h.table.atLeastOne, h.table.atMost57, h.table.nlen, h.table.ssm, h.table.bsm,
    h.table.sentinel, h.table.masks⟩
  progress r hr := by
    by_cases hrs : r = sid
    · simpa [Naive.setScan, hrs] using hprog
    · simpa [Naive.setScan, hrs] using h.progress r hr
  descending r := by
    by_cases hrs : r = sid
    · simpa [Naive.setScan, hrs] using hpend.descending
    · simpa [Naive.setScan, hrs] using h.descending r
  range r := by
    by_cases hrs : r = sid
    · simpa [Naive.setScan, hrs] using hpend.range
    · simpa [Naive.setScan, hrs] using h.range r
  pending r hr := by
    by_cases hrs : r = sid
    · simpa [Naive.setScan, hrs] using hpend.bits
    · simpa [Naive.setScan, hrs] using h.pending r hr

theorem pendingOffsets_of_tracks {n : Naive} {s : State} (ht : Tracks n s.block) {sid : SessionId}
    (hp : sid.toNat < Config.nSess) : PendingOffsets (s.pend sid) (n.scan sid).pending :=
  ⟨ht.descending sid, ht.range sid, ht.pending sid hp⟩

theorem ready_of_tracks {n : Naive} {s : State} (ht : Tracks n s.block) {sid : SessionId}
    (hp : sid.toNat < Config.nSess) : Ready sid s := ⟨hp, ht.table.valid⟩

section Session
variable {n : Naive} {i : Instr} {s : State} (hwf : s.block.mt.wf) (ht : Tracks n s.block)
include hwf ht

/-- A command that writes its session as the naive matcher's new scan tells. -/
theorem keepsTrack_of_answered {sid : SessionId} {x : Scan} {y : Session} {r : Response}
    (he : exec i s = .next (answered sid y r s)) (hn : n.run i = (r, n.setScan sid x))
    (hprog : ProgressOf n.needle x.consumed y.prog) (hpend : PendingOffsets y.pend x.pending) : KeepsTrack n i s := by
  refine ⟨_, he, hwf, ?_, ?_⟩
  · rw [hn, answered_responses]
  · rw [hn]
    exact tracks_setSession ht hprog hpend

/-- A command that changes nothing the naive matcher knows. -/
theorem keepsTrack_of_unchanged {r : Response} (he : exec i s = .next ⟨s.block, s.cmdPort, s.responses ++ [r]⟩)
    (hn : n.run i = (r, n)) : KeepsTrack n i s := by
  refine ⟨_, he, hwf, ?_, ?_⟩
  · rw [hn]
  · rw [hn]
    exact ht

variable {sid : SessionId} (hp : sid.toNat < Config.nSess)
include hp

theorem keepsTrack_reset : KeepsTrack n (.reset sid) s :=
  keepsTrack_of_answered hwf ht (exec_reset_ready (ready_of_tracks ht hp)) rfl (progressOf_nil ht.table.atLeastOne)
    pendingOffsets_zero

/-- R80: `STEPB` reports a completion exactly when the bytes consumed so far end with the needle. -/
theorem keepsTrack_stepb (b : Byte) : KeepsTrack n (.stepb sid b) s := by
  have hprog : ProgressOf n.needle ((n.scan sid).consumed ++ [b]) (stepbProg sid b s) :=
    progressOf_advance ht.table (ht.progress sid hp) b
  refine keepsTrack_of_answered hwf ht (x := ⟨_, (n.scan sid).pending⟩) (exec_stepb_ready (ready_of_tracks ht hp) b) ?_
    hprog (pendingOffsets_of_tracks ht hp)
  simp only [and_ssm_eq_zero_iff ht.table hprog, Naive.run]
  cases completes n.needle ((n.scan sid).consumed ++ [b]) <;> rfl

/-- R83, R84: `STEPW` records the sub-offsets at which the stream ended with the needle, and reports whether there are
any. -/
theorem keepsTrack_stepw (w : Word) : KeepsTrack n (.stepw sid w) s := by
  have hprog : ProgressOf n.needle ((n.scan sid).consumed ++ wordBytes w) (stepwProg sid w s) := by
    rw [stepwProg_eq_advanceBytes ht.table.sentinel]
    exact progressOf_advanceBytes ht.table _ (ht.progress sid hp)
  have hpend := pendingOffsets_stepw ht.table (wordBytes_length w) hprog
  refine keepsTrack_of_answered hwf ht (x := ⟨_, wordCompletions n.needle _ (wordBytes w)⟩)
    (exec_stepw_ready (ready_of_tracks ht hp) w) ?_ hprog hpend
  simp only [← unpack_eq_zero_iff_of_tableOf ht.table, hpend.eq_zero_iff, Naive.run]

theorem keepsTrack_haspend : KeepsTrack n (.haspend sid) s := by
  refine keepsTrack_of_unchanged hwf ht (exec_haspend_ready (ready_of_tracks ht hp)) ?_
  simp only [(pendingOffsets_of_tracks ht hp).eq_zero_iff, ite_not, Naive.run]

/-- R91, R92, R94: `NEXTOFF` reports the latest sub-offset not yet reported. -/
theorem keepsTrack_nextoff : KeepsTrack n (.nextoff sid) s := by
  have hready := ready_of_tracks ht hp
  have hpend := pendingOffsets_of_tracks ht hp
  cases hj : (n.scan sid).pending with
  | nil =>
    rw [hj] at hpend
    exact keepsTrack_of_unchanged hwf ht (exec_nextoff_idle hready (hpend.eq_zero_iff.mpr rfl))
      (by simp only [Naive.run, hj])
  | cons j js =>
    rw [hj] at hpend
    exact keepsTrack_of_answered hwf ht (x := ⟨(n.scan sid).consumed, js⟩) (exec_nextoff_of_pending hready hpend)
      (by simp only [Naive.run, hj]) (ht.progress sid hp) hpend.clear_head

theorem keepsTrack_getlen : KeepsTrack n (.getlen sid) s := by
  have hval : s.block.nlen.setWidth 16 = BitVec.ofNat 16 n.needle.length := by
    rw [← ht.table.nlen, BitVec.ofNat_toNat]
  refine keepsTrack_of_unchanged hwf ht (exec_getlen_ready (ready_of_tracks ht hp)) ?_
  rw [hval]
  rfl

end Session

/-- Settles O40: one lemma per command. -/
theorem everyCommandTracksTheNaiveMatcher : Obligations.EveryCommandTracksTheNaiveMatcher := by
  intro n i s hwf ht hi
  cases i with
  | compile needle => exact keepsTrack_compile hwf hi.1 hi.2 n
  | reset sid => exact keepsTrack_reset hwf ht hi
  | stepb sid b => exact keepsTrack_stepb hwf ht hi b
  | stepw sid w => exact keepsTrack_stepw hwf ht hi w
  | haspend sid => exact keepsTrack_haspend hwf ht hi
  | nextoff sid => exact keepsTrack_nextoff hwf ht hi
  | getlen sid => exact keepsTrack_getlen hwf ht hi

/-! ### Whole runs -/

/-- From a block that tracks the naive matcher, a run of answerable commands gets the naive matcher's answers. -/
theorem execAll_answers : ∀ (is : List Instr) {n : Naive} {s : State}, s.block.mt.wf → Tracks n s.block →
    (∀ i ∈ is, answerable i) → ∃ t, execAll is s = .next t ∧ t.responses = s.responses ++ n.answers is
  | [], _, s, _, _, _ => ⟨s, rfl, (List.append_nil _).symm⟩
  | i :: is, n, s, hwf, ht, hall => by
    obtain ⟨hi, his⟩ := List.forall_mem_cons.mp hall
    obtain ⟨u, hu, hwfu, hresp, htu⟩ := everyCommandTracksTheNaiveMatcher n i s hwf ht hi
    obtain ⟨t, hrest, hanswers⟩ := execAll_answers is hwfu htu his
    refine ⟨t, (execAll_cons hu is).trans hrest, ?_⟩
    rw [hanswers, hresp, List.append_assoc]
    rfl

/-- Settles O41: the `COMPILE` starts the tracking, whatever the block held before it. -/
theorem runsAnswerAsTheNaiveMatcher : Obligations.RunsAnswerAsTheNaiveMatcher := by
  intro needle is s hwf hmin hmax hall
  obtain ⟨u, hu, hwfu, hresp, htu⟩ := keepsTrack_compile hwf hmin hmax ⟨needle, fun _ => ⟨[], []⟩⟩
  obtain ⟨t, hrest, hanswers⟩ := execAll_answers is hwfu htu hall
  refine ⟨t, (execAll_cons hu is).trans hrest, ?_⟩
  rw [hanswers, hresp, List.append_assoc]
  rfl

end Sys2Proof.Proofs
end
